-- ==== Sys2Proof/Word.lean ====
section
/-! DEFINITION. The word types of BRKCORE (spec/00_scope.md R6, R10). -/

namespace Sys2Proof

/-- A FixedPoint raw value, an operand register, a ball register, a response's data field: 16 bits (R6 `WORD`). -/
abbrev Word := BitVec 16

/-- One byte of the frame buffer (20_memory.md R54). -/
abbrev Byte := BitVec 8

/-- A command word `cmd[31:0]` (R6 `CMD_BITS`; 30_encoding.md R70). -/
abbrev CmdWord := BitVec 32

end Sys2Proof
end

