-- ==== Sys2Proof/Syntax.lean ====
section
/-! DEFINITION. The commands of BRKCORE, one constructor per row of spec/opcode_table.json
(spec/30_encoding.md R73). -/

namespace Sys2Proof

/-- An operand register number `q0` to `q15`: every value names a register (R71; 10_state.md R21). -/
abbrev Reg := Fin 16

/-- The ball register that BGET selects (R76 (c)). -/
inductive BallReg where
  | px | py | vx | vy
deriving DecidableEq, Repr

/-- The seventeen opcodes (R73). -/
inductive Op where
  | fraw | fint | fzero | fone | fmov
  | fadd | fsub | fneg | fmul | fdiv
  | ftrunc | fisint | fcmp | fget
  | bget | advance | draw
deriving DecidableEq, Repr

/-- A command with its operands, destination first (R81). -/
inductive Instr where
  | fraw (rd : Reg) (imm16 : Word)
  | fint (rd : Reg) (n : Int)
  | fzero (rd : Reg)
  | fone (rd : Reg)
  | fmov (rd ra : Reg)
  | fadd (rd ra rb : Reg)
  | fsub (rd ra rb : Reg)
  | fneg (rd ra : Reg)
  | fmul (rd ra rb : Reg)
  | fdiv (rd ra rb : Reg)
  | ftrunc (ra : Reg)
  | fisint (ra : Reg)
  | fcmp (ra rb : Reg)
  | fget (ra : Reg)
  | bget (rd : Reg) (sel : BallReg)
  | advance
  | draw
deriving DecidableEq, Repr

/-- The opcode of a command. -/
def Instr.op : Instr → Op
  | .fraw _ _ => .fraw
  | .fint _ _ => .fint
  | .fzero _ => .fzero
  | .fone _ => .fone
  | .fmov _ _ => .fmov
  | .fadd _ _ _ => .fadd
  | .fsub _ _ _ => .fsub
  | .fneg _ _ => .fneg
  | .fmul _ _ _ => .fmul
  | .fdiv _ _ _ => .fdiv
  | .ftrunc _ => .ftrunc
  | .fisint _ => .fisint
  | .fcmp _ _ => .fcmp
  | .fget _ => .fget
  | .bget _ _ => .bget
  | .advance => .advance
  | .draw => .draw

/-- The one pseudo-command, `NOP` = `FMOV q0, q0` (R82). -/
def Instr.nop : Instr := .fmov 0 0

end Sys2Proof
end

