-- ==== Sys2Proof/Decode.lean ====
section
/-! DEFINITION. The command encoding (spec/30_encoding.md R70 to R77): formats, the opcode map, the decoder, the
encoder. A command word is moved whole on a parallel port and has no byte order (20_memory.md R54). -/

namespace Sys2Proof

/-- The nine formats (R72). -/
inductive Format where
  | r3 | r2 | d | a | ab | i16 | i8 | sel | z
deriving DecidableEq, Repr

/-- A 1 at every bit the decoder compares: the opcode bits and the must-be-zero bits (R72). -/
def Format.mask : Format → CmdWord
  | .r3 => 0xFF000FFF#32
  | .r2 => 0xFF00FFFF#32
  | .d => 0xFF0FFFFF#32
  | .a => 0xFFF0FFFF#32
  | .ab => 0xFFF00FFF#32
  | .i16 => 0xFF0F0000#32
  | .i8 => 0xFF0FFF00#32
  | .sel => 0xFF0FFFFC#32
  | .z => 0xFFFFFFFF#32

/-- The opcode map's column `op` (R73). -/
def Op.code : Op → BitVec 8
  | .fraw => 0x01#8
  | .fint => 0x02#8
  | .fzero => 0x03#8
  | .fone => 0x04#8
  | .fmov => 0x05#8
  | .fadd => 0x10#8
  | .fsub => 0x11#8
  | .fneg => 0x12#8
  | .fmul => 0x13#8
  | .fdiv => 0x14#8
  | .ftrunc => 0x18#8
  | .fisint => 0x19#8
  | .fcmp => 0x1A#8
  | .fget => 0x1B#8
  | .bget => 0x20#8
  | .advance => 0x21#8
  | .draw => 0x22#8

/-- The opcode map's column `format` (R73). -/
def Op.format : Op → Format
  | .fraw => .i16
  | .fint => .i8
  | .fzero => .d
  | .fone => .d
  | .fmov => .r2
  | .fadd => .r3
  | .fsub => .r3
  | .fneg => .r2
  | .fmul => .r3
  | .fdiv => .r3
  | .ftrunc => .a
  | .fisint => .a
  | .fcmp => .ab
  | .fget => .a
  | .bget => .sel
  | .advance => .z
  | .draw => .z

/-- The opcode map's column `match`, `op << 24` (R72). -/
def Op.pattern (o : Op) : CmdWord := o.code.setWidth 32 <<< 24

/-- A word is the command of a row when `(w & mask) = match` (R72). -/
def Op.fits (o : Op) (w : CmdWord) : Bool := w &&& o.format.mask == o.pattern

/-- The rows of the opcode map, in its order (R73). -/
def Op.all : List Op :=
  [.fraw, .fint, .fzero, .fone, .fmov, .fadd, .fsub, .fneg, .fmul, .fdiv, .ftrunc, .fisint, .fcmp, .fget,
    .bget, .advance, .draw]

/-- Field `op`, bits 31:24 (R71). -/
def opField (w : CmdWord) : BitVec 8 := w.extractLsb' 24 8

/-- Field `rd`, bits 23:20 (R71). -/
def rdField (w : CmdWord) : Reg := (w.extractLsb' 20 4).toFin

/-- Field `ra`, bits 19:16 (R71). -/
def raField (w : CmdWord) : Reg := (w.extractLsb' 16 4).toFin

/-- Field `rb`, bits 15:12 (R71). -/
def rbField (w : CmdWord) : Reg := (w.extractLsb' 12 4).toFin

/-- Field `imm16`, bits 15:0 (R71). -/
def imm16Field (w : CmdWord) : Word := w.extractLsb' 0 16

/-- Field `imm8`, bits 7:0, read as a two's-complement integer (R76 (b)). -/
def imm8Field (w : CmdWord) : Int := (w.extractLsb' 0 8).toInt

/-- The ball register a selector value names (R76 (c)): 0 `PX`, 1 `PY`, 2 `VX`, 3 `VY`. -/
def selReg (b : BitVec 2) : BallReg :=
  if b = 0#2 then .px else if b = 1#2 then .py else if b = 2#2 then .vx else .vy

/-- Field `sel`, bits 1:0 (R76 (c)). -/
def selField (w : CmdWord) : BallReg := selReg (w.extractLsb' 0 2)

/-- The command of a word whose row is known: the used fields, in the layout of the row's format (R71, R72). -/
def Op.operands (o : Op) (w : CmdWord) : Instr :=
  match o with
  | .fraw => .fraw (rdField w) (imm16Field w)
  | .fint => .fint (rdField w) (imm8Field w)
  | .fzero => .fzero (rdField w)
  | .fone => .fone (rdField w)
  | .fmov => .fmov (rdField w) (raField w)
  | .fadd => .fadd (rdField w) (raField w) (rbField w)
  | .fsub => .fsub (rdField w) (raField w) (rbField w)
  | .fneg => .fneg (rdField w) (raField w)
  | .fmul => .fmul (rdField w) (raField w) (rbField w)
  | .fdiv => .fdiv (rdField w) (raField w) (rbField w)
  | .ftrunc => .ftrunc (raField w)
  | .fisint => .fisint (raField w)
  | .fcmp => .fcmp (raField w) (rbField w)
  | .fget => .fget (raField w)
  | .bget => .bget (rdField w) (selField w)
  | .advance => .advance
  | .draw => .draw

/-- Why a word is no command (R75). -/
inductive DecodeError where
  /-- R75 (a): `op` is none of the seventeen listed values. -/
  | unassignedOpcode
  /-- R75 (b): `op` is listed and a must-be-zero bit of its format is 1. -/
  | mustBeZero
deriving DecidableEq, Repr

/-- The decoder: the row whose mask and match accept the word (R72, R73), else the reason there is none (R75). -/
def decode (w : CmdWord) : Except DecodeError Instr :=
  match Op.all.find? (fun o => o.fits w) with
  | some o => .ok (o.operands w)
  | none => if Op.all.any (fun o => o.code == opField w) then .error .mustBeZero else .error .unassignedOpcode

/-- The 4-bit field that names a register. -/
def regBits (r : Reg) : BitVec 4 := BitVec.ofFin r

/-- The 2-bit field that names a ball register (R76 (c)). -/
def selBits : BallReg → BitVec 2
  | .px => 0#2
  | .py => 1#2
  | .vx => 2#2
  | .vy => 3#2

/-- A word of the register layout: `op`, `rd`, `ra`, `rb`, `z12` (R71). -/
def regLayout (o : Op) (rd ra rb : BitVec 4) : CmdWord :=
  o.pattern ||| (rd.setWidth 32 <<< 20) ||| (ra.setWidth 32 <<< 16) ||| (rb.setWidth 32 <<< 12)

/-- A word of the immediate layout: `op`, `rd`, `z4`, `imm16` (R71). -/
def immLayout (o : Op) (rd : BitVec 4) (imm16 : Word) : CmdWord :=
  o.pattern ||| (rd.setWidth 32 <<< 20) ||| imm16.setWidth 32

/-- The word of a command, written from R71 to R73, every unused field zero. -/
def encode : Instr → CmdWord
  | .fraw rd imm16 => immLayout .fraw (regBits rd) imm16
  | .fint rd n => immLayout .fint (regBits rd) ((BitVec.ofInt 8 n).setWidth 16)
  | .fzero rd => regLayout .fzero (regBits rd) 0#4 0#4
  | .fone rd => regLayout .fone (regBits rd) 0#4 0#4
  | .fmov rd ra => regLayout .fmov (regBits rd) (regBits ra) 0#4
  | .fadd rd ra rb => regLayout .fadd (regBits rd) (regBits ra) (regBits rb)
  | .fsub rd ra rb => regLayout .fsub (regBits rd) (regBits ra) (regBits rb)
  | .fneg rd ra => regLayout .fneg (regBits rd) (regBits ra) 0#4
  | .fmul rd ra rb => regLayout .fmul (regBits rd) (regBits ra) (regBits rb)
  | .fdiv rd ra rb => regLayout .fdiv (regBits rd) (regBits ra) (regBits rb)
  | .ftrunc ra => regLayout .ftrunc 0#4 (regBits ra) 0#4
  | .fisint ra => regLayout .fisint 0#4 (regBits ra) 0#4
  | .fcmp ra rb => regLayout .fcmp 0#4 (regBits ra) (regBits rb)
  | .fget ra => regLayout .fget 0#4 (regBits ra) 0#4
  | .bget rd sel => immLayout .bget (regBits rd) ((selBits sel).setWidth 16)
  | .advance => regLayout .advance 0#4 0#4 0#4
  | .draw => regLayout .draw 0#4 0#4 0#4

/-- The command word the host's numbering names: the low `nbits` bits of `w`, zero above (a command has one word,
R70, so there is nothing above bit 31). -/
def tableWord (nbits w : Nat) : CmdWord := BitVec.ofNat 32 (w % 2 ^ nbits)

/-- What the decoder reads from a row's word, or none where it refuses. -/
def decodeTableWord (nbits w : Nat) : Option Instr := (decode (tableWord nbits w)).toOption

end Sys2Proof
end

