-- ==== Sys2Proof/Machine/FixedPoint.lean ====
section
/-! DEFINITION. The pure functions on 16-bit raw values (spec/40_fixedpoint.md R100 to R111) over the primitives of
spec/00_scope.md R11. Operands are read as integers, the result is exact, and it is narrowed once at the end. -/

namespace Sys2Proof.Machine

/-- `trunc_16` (R11): the low 16 bits of the two's-complement representation of an integer. -/
def trunc16 (v : Int) : Word := BitVec.ofInt 16 v

/-- `asr(v, n)` (R11): `floor(v / 2^n)`. -/
def asr (v : Int) (n : Nat) : Int := v / (2 ^ n : Int)

/-- `tdiv(n, d)` (R11): the integer quotient rounded toward zero. -/
def tdiv (n d : Int) : Int := Int.tdiv n d

/-- `FX_ZERO` (R103). -/
def fxZero : Word := 0x0000#16

/-- `FX_ONE` (R103). -/
def fxOne : Word := 0x0100#16

/-- R101: the FixedPoint of an 8-bit signed integer. -/
def fxFromInt (n : Int) : Word := trunc16 (n * 256)

/-- R102: the FixedPoint of a raw pattern is that pattern. -/
def fxFromRaw (r : Word) : Word := r

/-- R104: wrapping addition. -/
def fxAdd (a b : Word) : Word := trunc16 (a.toInt + b.toInt)

/-- R105: wrapping subtraction. -/
def fxSub (a b : Word) : Word := trunc16 (a.toInt - b.toInt)

/-- R106: wrapping negation; `0x8000` negates to itself. -/
def fxNeg (a : Word) : Word := trunc16 (-a.toInt)

/-- R107: the exact product shifted right arithmetically by 8, low 16 bits. -/
def fxMul (a b : Word) : Word := trunc16 (asr (a.toInt * b.toInt) 8)

/-- R108: the widened dividend shifted left by 8, over the divisor, toward zero, low 16 bits; no value for a zero
divisor. -/
def fxDiv (a b : Word) : Option Word :=
  if b = 0x0000#16 then none else some (trunc16 (tdiv (a.toInt * 256) b.toInt))

/-- R109: the integer part toward negative infinity, in -128 to 127. -/
def fxFloor (a : Word) : Int := asr a.toInt 8

/-- R110: all fraction bits are zero. -/
def fxIsInt (a : Word) : Bool := a.extractLsb' 0 8 == 0#8

/-- The three outcomes of the comparison (R111). -/
inductive Comparison where
  | less | equal | greater
deriving DecidableEq, Repr

/-- R111: the signed order of the raw values; equality is of all 16 bits. -/
def fxCmp (a b : Word) : Comparison :=
  if a.toInt < b.toInt then .less else if a = b then .equal else .greater

/-- R111: the derived predicate `a < b`. -/
def fxLt (a b : Word) : Bool := decide (a.toInt < b.toInt)

/-- R111: the derived predicate `a >= b`. -/
def fxGe (a b : Word) : Bool := decide (a.toInt ≥ b.toInt)

end Sys2Proof.Machine
end

