-- ==== Sys2Proof/Machine/Flags.lean ====
section
/-! DEFINITION. BRKCORE has no flags: Boolean and three-way results go to the response's data and are stored nowhere
(spec/10_state.md R32; 30_encoding.md R80). -/

namespace Sys2Proof.Machine

/-- The data of FTRUNC: the 8-bit signed integer sign-extended to 16 bits (40_fixedpoint.md R125). -/
def truncData (i : Int) : Word := trunc16 i

/-- The data of FISINT (R126). -/
def boolData (b : Bool) : Word := if b then 0x0001#16 else 0x0000#16

/-- The data of FCMP (R127). -/
def cmpData : Comparison → Word
  | .less => 0xFFFF#16
  | .equal => 0x0000#16
  | .greater => 0x0001#16

end Sys2Proof.Machine
end

