-- ==== Sys2Proof/Config.lean ====
section
/-! DEFINITION. The fixed parameters of BRKCORE, its open parameters `cfg`, and the values the spec leaves free
(spec/00_scope.md R6 to R8; 93_implementation_defined.md U4, U5, U10, U13). -/

namespace Sys2Proof

/-- `DISPLAY_W` (R6). -/
abbrev displayW : Nat := 96

/-- `DISPLAY_H` (R6). -/
abbrev displayH : Nat := 96

/-- `FB_BYTES` = 96 * 96 * 2 (R6; 20_memory.md R51). -/
abbrev fbBytes : Nat := 18432

/-- `V0`, the raw value of each initial velocity component, 4 * 0b10110110 (R6; 10_state.md R24). -/
abbrev v0 : Word := 0x02D8#16

/-- The open parameters of the playfield (R7): `PF_W`, `PF_H`, `PF_LEFT`, `PF_TOP`. -/
structure Config where
  pfW : Nat
  pfH : Nat
  pfLeft : Nat
  pfTop : Nat
deriving DecidableEq, Repr

/-- The reference configuration `REF` (R8), which is the spec's choice for test vectors and no property of the
hardware. DESIGN CHOICE (log 3): the configuration `State.reset` carries. Unsafe for a claim that leans on it. -/
def Config.ref : Config := { pfW := 80, pfH := 64, pfLeft := 8, pfTop := 24 }

/-- Free value (log 5): the byte at an address of `FB` after the `n`-th reset and before the first DRAW
(10_state.md R34, U4: any byte values, not necessarily equal, not necessarily those before reset). -/
opaque Config.fbAtReset : Nat → Nat → Byte

/-- Free value (log 6): the byte the sink reads at its `n`-th read when the address lies outside `FB`
(20_memory.md R58, U5: an unspecified byte). -/
opaque Config.sinkByte : Nat → BitVec 15 → Byte

end Sys2Proof
end

