-- ==== Sys2Proof/Machine/State.lean ====
section
/-! DEFINITION. The state of BRKCORE (spec/10_state.md R20 to R36), its reset value (R34) and the reasons a step can
stop. -/

namespace Sys2Proof.Machine

/-- An ordered pair of FixedPoint values with no coupling of its components (R23). -/
structure Vec2 where
  x : Word
  y : Word
deriving DecidableEq, Repr

/-- The ball: position `{PX, PY}` and velocity `{VX, VY}` (R24). -/
structure Ball where
  position : Vec2
  velocity : Vec2
deriving DecidableEq, Repr

/-- The fault codes of `CAUSE` (R29; 60_exceptions.md R180); `none` is code 0, no fault. -/
inductive Cause where
  | none
  | illegal
  | divzero
  | range
deriving DecidableEq, Repr

/-- The response's status codes 0, 1 and 2 (30_encoding.md R79); code 3 is never produced and has no constructor (U7). -/
inductive Status where
  | ok
  | fault
  | halted
deriving DecidableEq, Repr

/-- One response `{status, data}` (30_encoding.md R78). -/
structure Response where
  status : Status
  data : Word
deriving DecidableEq, Repr

/-- The bytes of `FB` that have been written since the last reset, at rising addresses (20_memory.md R50). -/
structure Memory where
  cells : List Host.Cell
deriving DecidableEq, Repr

/-- What the world outside the block does next (log 1, log 2, log 7): the host offers a command word (R31, R36), `rst`
is raised (70_reset_and_hazards.md R212), the sink presents an address to the read port (20_memory.md R57). -/
inductive Input where
  | command (w : CmdWord)
  | reset
  | sinkRead (a : BitVec 15)
deriving DecidableEq, Repr

/-- No step of BRKCORE stops with a fault, so this type has no constructor: the spec's three faults are entered as
next states (60_exceptions.md R185), a halted block goes on answering (R186), and no command forms an address outside
`FB` (log 17). -/
inductive Fault where
deriving DecidableEq, Repr

/-- Why the model gives no next state. -/
inductive Refusal where
  /-- An instruction of the table without a meaning; raised by an arm of `exec` only, and by none in this model. Safe. -/
  | notModelled (mnemonic : String)
  /-- The configuration is not well formed: every rule assumes that it is, and a model refuses one that is not
  (00_scope.md R7, U10; log 4). Raised by `step` before anything else. Safe. -/
  | illFormedConfig
deriving DecidableEq, Repr

/-- The whole state: the tuple of R20, the port levels of R36, the configuration of 00_scope.md R7, and the model's own
`inputs`, `resets` and `sinkReads` (log 1, log 5, log 6). -/
structure State where
  /-- `q[0..15]` (R21). -/
  q : Vector Word 16
  /-- `PX, PY, VX, VY` (R24). -/
  ball : Ball
  /-- `FB` (R27). -/
  fb : Memory
  /-- `HALT` (R28). -/
  halt : Bool
  /-- `CAUSE` (R29). -/
  cause : Cause
  /-- `FCMD` (R30). -/
  fcmd : CmdWord
  /-- `rsp`, the response of the last accepted command; `none` when `rsp_valid = 0` (R36; log 9). -/
  rsp : Option Response
  /-- `fb_raddr`, the address the sink presents (R36; log 8). -/
  fbRaddr : BitVec 15
  /-- `cfg` (00_scope.md R7; log 3). -/
  cfg : Config
  /-- The model's own: what the host and the sink do next, first in front (log 1). -/
  inputs : List Input
  /-- The model's own: how many resets there have been, which selects the free contents of `FB` (log 5). -/
  resets : Nat
  /-- The model's own: how many sink reads there have been, which selects the free byte of a read outside `FB` (log 6). -/
  sinkReads : Nat
deriving DecidableEq, Repr

/-- The machine right after reset (R34; 70_reset_and_hazards.md R210, R211). `FB` lists nothing: its contents are free
(log 5). The values of `fbRaddr`, `cfg`, `inputs`, `resets` and `sinkReads` are DESIGN CHOICE (log 8, 3, 1, 5, 6). -/
def State.reset : State where
  q := Vector.replicate 16 0x0000#16
  ball := { position := { x := 0x0000#16, y := 0x0000#16 }, velocity := { x := v0, y := v0 } }
  fb := { cells := [] }
  halt := false
  cause := .none
  fcmd := 0x00000000#32
  rsp := none
  fbRaddr := 0#15
  cfg := Config.ref
  inputs := []
  resets := 0
  sinkReads := 0

end Sys2Proof.Machine
end

