-- ==== Sys2Proof/Machine/Operands.lean ====
section
/-! DEFINITION. The operand forms (spec/30_encoding.md R76): a register of `q`, a ball register; immediates are used as
the command's own meaning says. There is no other form and no addressing mode. -/

namespace Sys2Proof.Machine

/-- The read `q[i]` (00_scope.md R11). -/
def State.readReg (s : State) (i : Reg) : Word := s.q.get i

/-- The write `q[i] <- v` (00_scope.md R11); no register is hardwired (10_state.md R21). -/
def State.writeReg (s : State) (i : Reg) (v : Word) : State := { s with q := s.q.set i.val v i.isLt }

/-- The ball register a selector names (R76 (c)). -/
def Ball.get (b : Ball) : BallReg → Word
  | .px => b.position.x
  | .py => b.position.y
  | .vx => b.velocity.x
  | .vy => b.velocity.y

/-- The operand register a command writes, where it writes one (R73). -/
def destReg : Instr → Option Reg
  | .fraw rd _ => some rd
  | .fint rd _ => some rd
  | .fzero rd => some rd
  | .fone rd => some rd
  | .fmov rd _ => some rd
  | .fadd rd _ _ => some rd
  | .fsub rd _ _ => some rd
  | .fneg rd _ => some rd
  | .fmul rd _ _ => some rd
  | .fdiv rd _ _ => some rd
  | .ftrunc _ => none
  | .fisint _ => none
  | .fcmp _ _ => none
  | .fget _ => none
  | .bget rd _ => some rd
  | .advance => none
  | .draw => none

end Sys2Proof.Machine
end

