-- ==== Sys2Proof/Machine/Ops.lean ====
section
/-! DEFINITION. The shared operations: the frame buffer's bytes (spec/20_memory.md), the response
(30_encoding.md R78 to R80), fault entry and the halted answer (60_exceptions.md R185, R186), reset
(70_reset_and_hazards.md R210), the sink's read port (20_memory.md R57), and taking the next input. -/

namespace Sys2Proof.Machine

/-- Strictly rising addresses of at least `lo`, all below `fbBytes`. -/
def cellsRise : Nat → List Host.Cell → Bool
  | _, [] => true
  | lo, c :: cs => decide (lo ≤ c.1) && decide (c.1 < fbBytes) && cellsRise (c.1 + 1) cs

/-- The canonical form of `FB`: strictly rising addresses of `FB`. An unlisted address holds no value of the list's, so
no entry can equal it (log 5). -/
def Memory.wf (m : Memory) : Bool := cellsRise 0 m.cells

/-- The byte listed at an address. -/
def findByte : List Host.Cell → Nat → Option Byte
  | [], _ => none
  | c :: cs, a => if c.1 = a then some c.2 else findByte cs a

/-- The byte written at an address since the last reset, if any: what an unlisted address reads as is no value. -/
def Memory.read (m : Memory) (a : Nat) : Option Byte := findByte m.cells a

/-- One byte put at its place among rising addresses, over the byte that stood there. -/
def insertByte : List Host.Cell → Nat → Byte → List Host.Cell
  | [], a, v => [(a, v)]
  | c :: cs, a, v =>
    if a < c.1 then (a, v) :: c :: cs
    else if a = c.1 then (a, v) :: cs
    else c :: insertByte cs a v

/-- `MemWrite(a, 1, v)` (00_scope.md R11), defined for an address of `FB` only (20_memory.md R50). -/
def Memory.write (m : Memory) (a : Nat) (v : Byte) : Option Memory :=
  if a < fbBytes then some { cells := insertByte m.cells a v } else none

/-- Byte writes one after another. -/
def Memory.writeAll (m : Memory) : List Host.Cell → Option Memory
  | [] => some m
  | c :: cs => (m.write c.1 c.2).bind fun m' => m'.writeAll cs

/-- `MemRead(a, 1)` of the frame buffer (00_scope.md R11): the byte written since reset, else the free byte of the
reset's unspecified contents (10_state.md R34; log 5); no meaning outside `FB` (20_memory.md R58). -/
def State.memRead (s : State) (a : Nat) : Option Byte :=
  if a < fbBytes then some ((s.fb.read a).getD (Config.fbAtReset s.resets a)) else none

/-- The code of a fault in `CAUSE` (60_exceptions.md R180). -/
def Cause.code : Cause → BitVec 2
  | .none => 0#2
  | .illegal => 1#2
  | .divzero => 2#2
  | .range => 3#2

/-- `zext_16(CAUSE)` (30_encoding.md R79). -/
def Cause.data (c : Cause) : Word := c.code.setWidth 16

/-- The status code (30_encoding.md R79). -/
def Status.code : Status → BitVec 2
  | .ok => 0#2
  | .fault => 1#2
  | .halted => 2#2

/-- The response word `{status[1:0], data[15:0]}` (30_encoding.md R78). -/
def Response.word (r : Response) : BitVec 18 :=
  r.status.code.setWidth 18 <<< 16 ||| r.data.setWidth 18

/-- `respond(status, data)` (00_scope.md R11). -/
def State.respond (s : State) (st : Status) (data : Word) : State :=
  { s with rsp := some { status := st, data := data } }

/-- A result written to `q[rd]` and answered as the OK response's data (30_encoding.md R80). -/
def State.writeResult (s : State) (rd : Reg) (v : Word) : State := (s.writeReg rd v).respond .ok v

/-- `raise F(w)`, the fault entry (60_exceptions.md R185): `HALT`, `CAUSE`, `FCMD` and the FAULT response, nothing
else. -/
def State.raise (s : State) (c : Cause) (w : CmdWord) : State :=
  { s with halt := true, cause := c, fcmd := w }.respond .fault c.data

/-- The answer of a halted block, which changes no state (60_exceptions.md R186). -/
def State.answerHalted (s : State) : State := s.respond .halted s.cause.data

/-- Reset, the one way out of the halted state (70_reset_and_hazards.md R210; 60_exceptions.md R187): the state of
`State.reset`, with `FB` unspecified anew. What lies outside the block stays: the configuration (R213), the sink's address,
and the inputs to come (log 2). -/
def State.applyReset (s : State) : State :=
  { State.reset with
    cfg := s.cfg, fbRaddr := s.fbRaddr, inputs := s.inputs, resets := s.resets + 1, sinkReads := s.sinkReads }

/-- The sink presents an address to the read port (20_memory.md R57); the block's state does not change (R56). -/
def State.presentAddress (s : State) (a : BitVec 15) : State :=
  { s with fbRaddr := a, sinkReads := s.sinkReads + 1 }

/-- `fb_rdata` (20_memory.md R57): the byte of `FB` at `fb_raddr`, and outside `FB` a free byte (R58; log 6). -/
def State.fbRdata (s : State) : Byte :=
  (s.memRead s.fbRaddr.toNat).getD (Config.sinkByte s.sinkReads s.fbRaddr)

/-- The next input and the state without it; none when nothing is offered. -/
def State.takeInput (s : State) : Option (Input × State) :=
  match s.inputs with
  | [] => none
  | e :: rest => some (e, { s with inputs := rest })

/-- The host offers a command word as the very next input. -/
def State.offerCommand (s : State) (w : CmdWord) : State := { s with inputs := .command w :: s.inputs }

end Sys2Proof.Machine
end

