-- ==== Sys2Proof/Machine/Fxu.lean ====
section
/-! DEFINITION. The fourteen commands of the FixedPoint unit (spec/40_fixedpoint.md R115 to R128). Each reads its
source registers before it writes its destination (R131). -/

namespace Sys2Proof.Machine

open Host (Outcome)

/-- FRAW (R115). -/
def execFraw (rd : Reg) (imm16 : Word) (s : State) : Outcome State Fault Refusal :=
  .next (s.writeResult rd (fxFromRaw imm16))

/-- FINT (R116). -/
def execFint (rd : Reg) (n : Int) (s : State) : Outcome State Fault Refusal :=
  .next (s.writeResult rd (fxFromInt n))

/-- FZERO (R117). -/
def execFzero (rd : Reg) (s : State) : Outcome State Fault Refusal :=
  .next (s.writeResult rd fxZero)

/-- FONE (R118). -/
def execFone (rd : Reg) (s : State) : Outcome State Fault Refusal :=
  .next (s.writeResult rd fxOne)

/-- FMOV (R119). -/
def execFmov (rd ra : Reg) (s : State) : Outcome State Fault Refusal :=
  .next (s.writeResult rd (s.readReg ra))

/-- FADD (R120). -/
def execFadd (rd ra rb : Reg) (s : State) : Outcome State Fault Refusal :=
  .next (s.writeResult rd (fxAdd (s.readReg ra) (s.readReg rb)))

/-- FSUB (R121). -/
def execFsub (rd ra rb : Reg) (s : State) : Outcome State Fault Refusal :=
  .next (s.writeResult rd (fxSub (s.readReg ra) (s.readReg rb)))

/-- FNEG (R122). -/
def execFneg (rd ra : Reg) (s : State) : Outcome State Fault Refusal :=
  .next (s.writeResult rd (fxNeg (s.readReg ra)))

/-- FMUL (R123). -/
def execFmul (rd ra rb : Reg) (s : State) : Outcome State Fault Refusal :=
  .next (s.writeResult rd (fxMul (s.readReg ra) (s.readReg rb)))

/-- FDIV (R124): DIVZERO on a zero divisor, with `q[rd]` not written; `FCMD` takes the command's word (log 11). -/
def execFdiv (rd ra rb : Reg) (s : State) : Outcome State Fault Refusal :=
  match fxDiv (s.readReg ra) (s.readReg rb) with
  | none => .next (s.raise .divzero (encode (.fdiv rd ra rb)))
  | some v => .next (s.writeResult rd v)

/-- FTRUNC (R125). -/
def execFtrunc (ra : Reg) (s : State) : Outcome State Fault Refusal :=
  .next (s.respond .ok (truncData (fxFloor (s.readReg ra))))

/-- FISINT (R126). -/
def execFisint (ra : Reg) (s : State) : Outcome State Fault Refusal :=
  .next (s.respond .ok (boolData (fxIsInt (s.readReg ra))))

/-- FCMP (R127). -/
def execFcmp (ra rb : Reg) (s : State) : Outcome State Fault Refusal :=
  .next (s.respond .ok (cmpData (fxCmp (s.readReg ra) (s.readReg rb))))

/-- FGET (R128). -/
def execFget (ra : Reg) (s : State) : Outcome State Fault Refusal :=
  .next (s.respond .ok (s.readReg ra))

end Sys2Proof.Machine
end

