-- ==== Sys2Proof/Machine/Integrator.lean ====
section
/-! DEFINITION. The ball-physics integrator: ADVANCE and BGET (spec/41_integrator.md R140 to R143). -/

namespace Sys2Proof.Machine

open Host (Outcome)

/-- The sign flip of the x axis (R140). -/
def Vec2.flipX (v : Vec2) : Vec2 := { v with x := fxNeg v.x }

/-- The sign flip of the y axis (R140). -/
def Vec2.flipY (v : Vec2) : Vec2 := { v with y := fxNeg v.y }

/-- Step 2 of a tick on one axis (R141): below zero the position is clamped to zero and the velocity flips. -/
def reflectLow (p v : Word) : Word × Word := if fxLt p fxZero then (fxZero, fxNeg v) else (p, v)

/-- Step 3 of a tick on one axis (R141): at or beyond the extent the position is clamped to `ext - 1` and the velocity
flips. -/
def reflectHigh (p v : Word) (ext : Int) : Word × Word :=
  if fxGe p (fxFromInt ext) then (fxFromInt (ext - 1), fxNeg v) else (p, v)

/-- One axis of one tick, position first (R141): the wrapping add, then the low edge, then the high edge on what the low
edge left. -/
def axisStep (p v : Word) (ext : Int) : Word × Word :=
  reflectHigh (reflectLow (fxAdd p v) v).1 (reflectLow (fxAdd p v) v).2 ext

/-- The ball after one tick: the two axes apart (R142). -/
def Ball.tick (b : Ball) (c : Config) : Ball :=
  let x := axisStep b.position.x b.velocity.x c.pfW
  let y := axisStep b.position.y b.velocity.y c.pfH
  { position := { x := x.1, y := y.1 }, velocity := { x := x.2, y := y.2 } }

/-- ADVANCE (R142). -/
def execAdvance (s : State) : Outcome State Fault Refusal :=
  .next ({ s with ball := s.ball.tick s.cfg }.respond .ok 0x0000#16)

/-- BGET (R143). -/
def execBget (rd : Reg) (sel : BallReg) (s : State) : Outcome State Fault Refusal :=
  .next (s.writeResult rd (s.ball.get sel))

end Sys2Proof.Machine
end

