-- ==== Sys2Proof/Machine/Rasterizer.lean ====
section
/-! DEFINITION. The playfield rasterizer: DRAW (spec/42_rasterizer.md R160 to R168). Display coordinates are integers,
since a border edge is one less than an offset. -/

namespace Sys2Proof.Machine

open Host (Outcome)

/-- The byte address of a pixel's first byte (20_memory.md R52; R168). -/
def pixAddr (x y : Nat) : Nat := 2 * (displayW * y + x)

/-- The display column of the pixel that owns a byte address (R164). -/
def columnOf (a : Nat) : Nat := a % 192 / 2

/-- The display row of the pixel that owns a byte address (R164). -/
def rowOf (a : Nat) : Nat := a / 192

/-- `BL` (R161). -/
def borderLeft (c : Config) : Int := (c.pfLeft : Int) - 1

/-- `BR` (R161). -/
def borderRight (c : Config) : Int := (c.pfLeft : Int) + c.pfW

/-- `BT` (R161). -/
def borderTop (c : Config) : Int := (c.pfTop : Int) - 1

/-- `BB` (R161). -/
def borderBottom (c : Config) : Int := (c.pfTop : Int) + c.pfH

/-- Membership of a display pixel in `RING`, the one-pixel border around the playfield (R161). -/
def inRing (c : Config) (x y : Int) : Bool :=
  decide (borderLeft c ≤ x) && decide (x ≤ borderRight c) && decide (borderTop c ≤ y) && decide (y ≤ borderBottom c) &&
    (decide (x = borderLeft c) || decide (x = borderRight c) || decide (y = borderTop c) || decide (y = borderBottom c))

/-- The integer playfield point lies inside the playfield (R160). -/
def inPlayfield (c : Config) (bi bj : Int) : Bool :=
  decide (0 ≤ bi) && decide (bi < c.pfW) && decide (0 ≤ bj) && decide (bj < c.pfH)

/-- The display pixel is the ball's (R162). -/
def isBallPixel (c : Config) (bi bj x y : Int) : Bool :=
  decide (x = c.pfLeft + bi) && decide (y = c.pfTop + bj)

/-- What a drawn frame holds at a byte address, for the ball at the playfield point `(bi, bj)` (R164). -/
def frameByte (c : Config) (bi bj : Int) (a : Nat) : Byte :=
  if inRing c (columnOf a) (rowOf a) || isBallPixel c bi bj (columnOf a) (rowOf a) then 0xFF#8 else 0x00#8

/-- A drawn frame: every byte of `FB`, each with its final value, as R163 lets an implementation write it (log 12).
Irreducible, so that comparing two states never unfolds the 18432 bytes; `frame_read` says what it holds. -/
@[irreducible] def frame (c : Config) (bi bj : Int) : Memory :=
  { cells := (List.range fbBytes).map fun a => (a, frameByte c bi bj a) }

/-- The display's pixels, row by row. -/
def displayPixels : List (Nat × Nat) :=
  (List.range displayH).flatMap fun y => (List.range displayW).map fun x => (x, y)

/-- The pixels of `RING` (R161). -/
def ring (c : Config) : List (Nat × Nat) := displayPixels.filter fun p => inRing c p.1 p.2

/-- The two byte writes of one white pixel (R163). -/
def whitePixel (x y : Nat) : List Host.Cell := [(pixAddr x y, 0xFF#8), (pixAddr x y + 1, 0xFF#8)]

/-- The byte writes of DRAW in the order R163 lists them: the zeroed buffer, the ring, the ball. -/
def drawWrites (c : Config) (bi bj : Int) : List Host.Cell :=
  (List.range fbBytes).map (fun a => (a, 0x00#8)) ++ (ring c).flatMap (fun p => whitePixel p.1 p.2) ++
    whitePixel (c.pfLeft + bi).toNat (c.pfTop + bj).toNat

/-- DRAW (R163): RANGE before any byte is written when the ball's floor lies outside the playfield (R165), else the whole
frame. `FCMD` takes the command's word (log 11). -/
def execDraw (s : State) : Outcome State Fault Refusal :=
  let bi := fxFloor s.ball.position.x
  let bj := fxFloor s.ball.position.y
  if inPlayfield s.cfg bi bj then .next ({ s with fb := frame s.cfg bi bj }.respond .ok 0x0000#16)
  else .next (s.raise .range (encode .draw))

end Sys2Proof.Machine
end

