-- ==== Sys2Proof/Machine/Dispatch.lean ====
section
/-! DEFINITION. One arm per command of the opcode map (spec/30_encoding.md R73, R84: "execute the rule of the matching
row"). The halt test and the decoding come before it, in Machine/Command.lean. -/

namespace Sys2Proof.Machine

def exec (i : Instr) (s : State) : Host.Outcome State Fault Refusal :=
  match i with
  | .fraw rd imm16 => Sys2Proof.Machine.execFraw rd imm16 s
  | .fint rd n => Sys2Proof.Machine.execFint rd n s
  | .fzero rd => Sys2Proof.Machine.execFzero rd s
  | .fone rd => Sys2Proof.Machine.execFone rd s
  | .fmov rd ra => Sys2Proof.Machine.execFmov rd ra s
  | .fadd rd ra rb => Sys2Proof.Machine.execFadd rd ra rb s
  | .fsub rd ra rb => Sys2Proof.Machine.execFsub rd ra rb s
  | .fneg rd ra => Sys2Proof.Machine.execFneg rd ra s
  | .fmul rd ra rb => Sys2Proof.Machine.execFmul rd ra rb s
  | .fdiv rd ra rb => Sys2Proof.Machine.execFdiv rd ra rb s
  | .ftrunc ra => Sys2Proof.Machine.execFtrunc ra s
  | .fisint ra => Sys2Proof.Machine.execFisint ra s
  | .fcmp ra rb => Sys2Proof.Machine.execFcmp ra rb s
  | .fget ra => Sys2Proof.Machine.execFget ra s
  | .bget rd sel => Sys2Proof.Machine.execBget rd sel s
  | .advance => Sys2Proof.Machine.execAdvance s
  | .draw => Sys2Proof.Machine.execDraw s

end Sys2Proof.Machine
end

