-- ==== Sys2Proof/Machine/Command.lean ====
section
/-! DEFINITION. What one input does: an accepted command word (spec/30_encoding.md R84), a reset
(70_reset_and_hazards.md R212), a read of the sink (20_memory.md R57). -/

namespace Sys2Proof.Machine

open Host (Outcome)

/-- The step function of R84 on an accepted word: the halt test first, then the decoding, then the command's rule. -/
def acceptCommand (w : CmdWord) (s : State) : Outcome State Fault Refusal :=
  if s.halt then .next s.answerHalted
  else
    match decode w with
    | .error _ => .next (s.raise .illegal w)
    | .ok i => exec i s

/-- What an input does. -/
def perform (e : Input) (s : State) : Outcome State Fault Refusal :=
  match e with
  | .command w => acceptCommand w s
  | .reset => .next s.applyReset
  | .sinkRead a => .next (s.presentAddress a)

end Sys2Proof.Machine
end

