-- ==== Sys2Proof/WellFormed.lean ====
section
/-! DEFINITION. Well-formed commands (spec/30_encoding.md R76, R81) and well-formed configurations
(spec/00_scope.md R7). -/

namespace Sys2Proof

/-- FINT's operand is an 8-bit signed integer (R76 (b), R81, 40_fixedpoint.md R101); every other field's type admits
only the values its encoding has. -/
def Instr.wf : Instr → Bool
  | .fint _ n => decide (-128 ≤ n) && decide (n ≤ 127)
  | .fraw _ _ => true
  | .fzero _ => true
  | .fone _ => true
  | .fmov _ _ => true
  | .fadd _ _ _ => true
  | .fsub _ _ _ => true
  | .fneg _ _ => true
  | .fmul _ _ _ => true
  | .fdiv _ _ _ => true
  | .ftrunc _ => true
  | .fisint _ => true
  | .fcmp _ _ => true
  | .fget _ => true
  | .bget _ _ => true
  | .advance => true
  | .draw => true

/-- The six conditions of R7 under which the border ring lies inside the display. -/
def Config.wf (c : Config) : Bool :=
  decide (1 ≤ c.pfW) && decide (1 ≤ c.pfH) && decide (1 ≤ c.pfLeft) && decide (1 ≤ c.pfTop) &&
    decide (c.pfLeft + c.pfW ≤ displayW - 1) && decide (c.pfTop + c.pfH ≤ displayH - 1)

end Sys2Proof
end

