-- ==== Sys2Proof/Machine/Step.lean ====
section
/-! DEFINITION. One step: the next input is taken and performed (spec/00_scope.md R9). -/

namespace Sys2Proof.Machine

/-- One step. The configuration must be well formed (00_scope.md R7; log 4). With no input the block is idle
(70_reset_and_hazards.md R211; log 10). -/
def step (s : State) : Host.Outcome State Fault Refusal :=
  if s.cfg.wf then
    match s.takeInput with
    | none => .next s
    | some (e, s') => perform e s'
  else .refused .illFormedConfig

/-- The state whose very next step accepts the command word of the host's numbering (log 1). -/
def State.withFetchWord (s : State) (nbits w : Nat) : State := s.offerCommand (tableWord nbits w)

end Sys2Proof.Machine
end

