-- ==== Sys2Proof/Machine/Ports.lean ====
section
/-! DEFINITION. The outputs of the block (spec/10_state.md R35, R36): functions of the state, between two commands. The
read port's `fb_rdata` is `State.fbRdata` of Machine/Ops.lean. -/

namespace Sys2Proof.Machine

/-- Output `fault = HALT` (R35). -/
def State.faultOut (s : State) : Bool := s.halt

/-- Output `cause[1:0] = CAUSE` (R35). -/
def State.causeOut (s : State) : BitVec 2 := s.cause.code

/-- Output `fcmd[31:0] = FCMD` (R35). -/
def State.fcmdOut (s : State) : CmdWord := s.fcmd

/-- Output `px[15:0] = PX` (R35). -/
def State.pxOut (s : State) : Word := s.ball.position.x

/-- Output `py[15:0] = PY` (R35). -/
def State.pyOut (s : State) : Word := s.ball.position.y

/-- Output `vx[15:0] = VX` (R35). -/
def State.vxOut (s : State) : Word := s.ball.velocity.x

/-- Output `vy[15:0] = VY` (R35). -/
def State.vyOut (s : State) : Word := s.ball.velocity.y

/-- Output `rsp_valid`: a response of the last accepted command stands on `rsp` (R36). -/
def State.rspValid (s : State) : Bool := s.rsp.isSome

/-- Output `rsp[17:0]`, where `rsp_valid = 1` (R36; 30_encoding.md R78). -/
def State.rspOut (s : State) : Option (BitVec 18) := s.rsp.map Response.word

/-- Output `busy` between two commands: every accepted command has its response (R36; 20_memory.md R59; log 13). -/
def State.busy (_ : State) : Bool := false

/-- Output `cmd_ready` between two commands: the block accepts the next one, halted or not (R36; 60_exceptions.md R186;
log 13). -/
def State.cmdReady (s : State) : Bool := !s.busy

/-- Input `cmd_valid`: the next input is a command (R36). -/
def State.cmdValid (s : State) : Bool :=
  match s.inputs with
  | .command _ :: _ => true
  | _ => false

/-- The sink's parameter `PIXEL_BYTE_ORDER` (20_memory.md R54, U12; log 14): which byte of a pixel is the high half. -/
inductive PixelByteOrder where
  | highFirst | lowFirst
deriving DecidableEq, Repr

/-- The sink's view of a pixel as one 16-bit R5:G6:B5 value (20_memory.md R54, R57). -/
def State.pixelValue (s : State) (o : PixelByteOrder) (x y : Nat) : Option (BitVec 16) :=
  match s.memRead (pixAddr x y), s.memRead (pixAddr x y + 1), o with
  | some first, some second, .highFirst => some (first ++ second)
  | some first, some second, .lowFirst => some (second ++ first)
  | _, _, _ => none

end Sys2Proof.Machine
end

