-- ==== Sys2Proof/Safety.lean ====
section
/-! DEFINITION. What claims about runs are stated in: the invariants of the state, a good run, and the effect of a list of
inputs (spec/10_state.md R25, R29, R30; 20_memory.md R53; 41_integrator.md R146; 60_exceptions.md R186;
70_reset_and_hazards.md R219). -/

namespace Sys2Proof.Machine

/-- The ball invariant (10_state.md R25): the position lies in `[0, PF_W) x [0, PF_H)`. -/
def State.BallInPlayfield (s : State) : Prop :=
  0 ≤ s.ball.position.x.toInt ∧ s.ball.position.x.toInt < s.cfg.pfW * 256 ∧
    0 ≤ s.ball.position.y.toInt ∧ s.ball.position.y.toInt < s.cfg.pfH * 256

/-- Each velocity component is the reset value or its negation (41_integrator.md R146): `0x02D8` or `0xFD28`. -/
def State.SpeedKept (s : State) : Prop :=
  (s.ball.velocity.x = 0x02D8#16 ∨ s.ball.velocity.x = 0xFD28#16) ∧
    (s.ball.velocity.y = 0x02D8#16 ∨ s.ball.velocity.y = 0xFD28#16)

/-- `CAUSE = 0` if and only if `HALT = 0` (10_state.md R29), and `FCMD` is still 0 before a fault (R30). -/
def State.FaultRecordKept (s : State) : Prop :=
  (s.cause = .none ↔ s.halt = false) ∧ (s.halt = false → s.fcmd = 0x00000000#32)

/-- `FB` since the last reset: nothing written, or every byte, each `0x00` or `0xFF` (20_memory.md R53;
42_rasterizer.md R163). -/
def State.FrameWhole (s : State) : Prop :=
  s.fb.cells = [] ∨
    (s.fb.cells.map Prod.fst = List.range fbBytes ∧ ∀ c ∈ s.fb.cells, c.2 = 0x00#8 ∨ c.2 = 0xFF#8)

/-- A halted block shows the FAULT or the HALTED response with its cause (10_state.md R36; 30_encoding.md R79;
60_exceptions.md R185, R186), since a response stays until the next one or a reset (log 9). -/
def State.HaltAnswered (s : State) : Prop :=
  s.halt = true → s.rsp = some { status := .fault, data := s.cause.data } ∨
    s.rsp = some { status := .halted, data := s.cause.data }

/-- What holds of every state a run from reset reaches, whatever the well-formed configuration. -/
structure State.Inv (s : State) : Prop where
  cfgWf : s.cfg.wf = true
  ballInPlayfield : s.BallInPlayfield
  speedKept : s.SpeedKept
  faultRecordKept : s.FaultRecordKept
  noRangeFault : s.cause ≠ .range
  frameCanonical : s.fb.wf = true
  frameWhole : s.FrameWhole
  haltAnswered : s.HaltAnswered

/-- A state has gone wrong when the block is halted (60_exceptions.md R186; 70_reset_and_hazards.md R219). -/
def State.GoneWrong (s : State) : Prop := s.halt = true

/-- The machine right after reset, for any configuration (10_state.md R34; 00_scope.md R7). -/
def State.resetWith (c : Config) : State := { State.reset with cfg := c }

/-- An input that is the command ADVANCE. -/
def Input.isAdvance : Input → Bool
  | .command w => w == 0x21000000#32
  | .reset => false
  | .sinkRead _ => false

/-- An input that is the command DRAW. -/
def Input.isDraw : Input → Bool
  | .command w => w == 0x22000000#32
  | .reset => false
  | .sinkRead _ => false

/-- An input that is a reset. -/
def Input.isReset : Input → Bool
  | .command _ => false
  | .reset => true
  | .sinkRead _ => false

/-- The opcode map's columns `match` and `mask`, transcribed from the table of 30_encoding.md R73; statements about the
decoder use this copy, not the decoder's own rows. -/
def opcodeRows : List (CmdWord × CmdWord) :=
  [(0x01000000#32, 0xFF0F0000#32), (0x02000000#32, 0xFF0FFF00#32), (0x03000000#32, 0xFF0FFFFF#32),
    (0x04000000#32, 0xFF0FFFFF#32), (0x05000000#32, 0xFF00FFFF#32), (0x10000000#32, 0xFF000FFF#32),
    (0x11000000#32, 0xFF000FFF#32), (0x12000000#32, 0xFF00FFFF#32), (0x13000000#32, 0xFF000FFF#32),
    (0x14000000#32, 0xFF000FFF#32), (0x18000000#32, 0xFFF0FFFF#32), (0x19000000#32, 0xFFF0FFFF#32),
    (0x1A000000#32, 0xFFF00FFF#32), (0x1B000000#32, 0xFFF0FFFF#32), (0x20000000#32, 0xFF0FFFFC#32),
    (0x21000000#32, 0xFFFFFFFF#32), (0x22000000#32, 0xFFFFFFFF#32)]

/-- A command's word is the number `n`, and that word is decoded to the command. -/
def EncodedAs (i : Instr) (n : Nat) : Prop := (encode i).toNat = n ∧ decode (BitVec.ofNat 32 n) = .ok i

/-- One axis of a tick said over integers (41_integrator.md R141): the wrapped sum is reflected below zero, reflected at or
beyond the extent, or kept. -/
def AxisRule (p v : Word) (ext : Nat) (p' v' : Word) : Prop :=
  ((p.toInt + v.toInt).bmod 65536 < 0 → p'.toInt = 0 ∧ v' = -v) ∧
    ((ext : Int) * 256 ≤ (p.toInt + v.toInt).bmod 65536 → p'.toInt = ((ext : Int) - 1) * 256 ∧ v' = -v) ∧
      (0 ≤ (p.toInt + v.toInt).bmod 65536 → (p.toInt + v.toInt).bmod 65536 < (ext : Int) * 256 →
        p'.toInt = (p.toInt + v.toInt).bmod 65536 ∧ v' = v)

/-- The display pixel lies on the border: the top or the bottom row, or the left or the right column (42_rasterizer.md
R161). -/
abbrev OnBorder (c : Config) (x y : Nat) : Prop :=
  ((y + 1 = c.pfTop ∨ y = c.pfTop + c.pfH) ∧ c.pfLeft ≤ x + 1 ∧ x ≤ c.pfLeft + c.pfW) ∨
    ((x + 1 = c.pfLeft ∨ x = c.pfLeft + c.pfW) ∧ c.pfTop ≤ y + 1 ∧ y ≤ c.pfTop + c.pfH)

/-- The display pixel is the ball's: the integer parts of the position, offset into the display (42_rasterizer.md R162). -/
abbrev OnBall (c : Config) (b : Ball) (x y : Nat) : Prop :=
  (x : Int) = c.pfLeft + b.position.x.toInt / 256 ∧ (y : Int) = c.pfTop + b.position.y.toInt / 256

/-- The condition under which DRAW draws: the integer parts of the position lie in the playfield (42_rasterizer.md R163,
R165). -/
abbrev FloorInPlayfield (c : Config) (b : Ball) : Prop :=
  0 ≤ b.position.x.toInt / 256 ∧ b.position.x.toInt / 256 < c.pfW ∧
    0 ≤ b.position.y.toInt / 256 ∧ b.position.y.toInt / 256 < c.pfH

/-- The ball after a number of ticks. -/
def Ball.ticks (c : Config) : Nat → Ball → Ball
  | 0, b => b
  | n + 1, b => Ball.ticks c n (b.tick c)

end Sys2Proof.Machine
end

