-- ==== Sys2Proof/Certificates/Slice0/Obligations.lean ====
section
/-! DEFINITION. The statements for the provers, each from a numbered rule of spec/. A next state is written as an update
of the state before, so that everything not named in it is unchanged. A statement about `exec` is about a command's rule, which
does not test `HALT` itself: the accepted word is tested first (log 18; StepRunsTheAcceptedWord). -/

open Sys2Proof Sys2Proof.Machine

/- ### Encoding (30_encoding.md) -/

/-- R71 to R76: the decoder reads back every operand of every well-formed command from the command's word. -/
def Obligations.EncodedCommandDecodesToItself : Prop :=
  ∀ i : Instr, i.wf = true → decode (encode i) = .ok i

/-- R75: a decoded command is well formed and has no other word than the one it was decoded from. -/
def Obligations.DecodedWordIsTheCommandsOnlyWord : Prop :=
  ∀ (w : CmdWord) (i : Instr), decode w = .ok i → i.wf = true ∧ encode i = w

/-- R72, R73: the words the decoder accepts are exactly those that agree with some row of the opcode map under its mask, and
no word agrees with two rows. -/
def Obligations.CommandsAreTheWordsOfOneRow : Prop :=
  (∀ w : CmdWord, (∃ i, decode w = .ok i) ↔ ∃ r ∈ opcodeRows, w &&& r.2 = r.1) ∧
    ∀ (w : CmdWord), ∀ r ∈ opcodeRows, ∀ r' ∈ opcodeRows, w &&& r.2 = r.1 → w &&& r'.2 = r'.1 → r = r'

/-- R81: the words of the assembler table's examples decode to the commands written beside them. -/
def Obligations.ExampleWordsDecode : Prop :=
  decode 0x01100700#32 = .ok (.fraw 1 0x0700#16) ∧ decode 0x022000FC#32 = .ok (.fint 2 (-4)) ∧
    decode 0x03700000#32 = .ok (.fzero 7) ∧ decode 0x04700000#32 = .ok (.fone 7) ∧
    decode 0x05210000#32 = .ok (.fmov 2 1) ∧ decode 0x10312000#32 = .ok (.fadd 3 1 2) ∧
    decode 0x11312000#32 = .ok (.fsub 3 1 2) ∧ decode 0x12210000#32 = .ok (.fneg 2 1) ∧
    decode 0x13312000#32 = .ok (.fmul 3 1 2) ∧ decode 0x14412000#32 = .ok (.fdiv 4 1 2) ∧
    decode 0x18030000#32 = .ok (.ftrunc 3) ∧ decode 0x19030000#32 = .ok (.fisint 3) ∧
    decode 0x1A012000#32 = .ok (.fcmp 1 2) ∧ decode 0x1B030000#32 = .ok (.fget 3) ∧
    decode 0x20500002#32 = .ok (.bget 5 .vx) ∧ decode 0x21000000#32 = .ok .advance ∧
    decode 0x22000000#32 = .ok .draw

/-- R75: a word whose opcode is unlisted, or whose opcode is listed and a must-be-zero bit of whose row is 1, raises ILLEGAL
and changes nothing but the fault record; every other word is a command. -/
def Obligations.UnlistedWordRaisesIllegal : Prop :=
  ∀ w : CmdWord,
    ((∀ r ∈ opcodeRows, w.extractLsb' 24 8 ≠ r.1.extractLsb' 24 8) ∨
        (∃ r ∈ opcodeRows, w.extractLsb' 24 8 = r.1.extractLsb' 24 8 ∧ w &&& r.2 &&& 0x00FFFFFF#32 ≠ 0#32) →
      ∀ (s : State) (rest : List Input), s.cfg.wf = true → s.inputs = .command w :: rest → s.halt = false →
        step s = .next
          { s with
            inputs := rest, halt := true, cause := .illegal, fcmd := w,
            rsp := some { status := .fault, data := 0x0001#16 } }) ∧
      (¬((∀ r ∈ opcodeRows, w.extractLsb' 24 8 ≠ r.1.extractLsb' 24 8) ∨
          (∃ r ∈ opcodeRows, w.extractLsb' 24 8 = r.1.extractLsb' 24 8 ∧ w &&& r.2 &&& 0x00FFFFFF#32 ≠ 0#32)) →
        ∃ i, decode w = .ok i)

/-- R78, R79: the response word is the status above the data, with status 0, 1 or 2 and never 3. -/
def Obligations.ResponseWordIsStatusAndData : Prop :=
  ∀ r : Response,
    r.word.toNat = (match r.status with | .ok => 0 | .fault => 1 | .halted => 2) * 65536 + r.data.toNat ∧
      r.word.extractLsb' 16 2 ≠ 3#2

/-- R78 to R80: every accepted command has a response; HALTED exactly when the block was halted, FAULT exactly when this
command halted it, each with the cause as data; and the data of an OK response are those of R80's table, row by row: the value
the destination then holds; the floor; the integrality; the signed order; the register; zero. -/
def Obligations.EveryAcceptedCommandHasItsResponse : Prop :=
  ∀ (s t : State) (w : CmdWord) (rest : List Input), s.inputs = .command w :: rest → step s = .next t →
    ∃ r : Response, t.rsp = some r ∧ (r.status = .halted ↔ s.halt = true) ∧
      (r.status = .fault ↔ s.halt = false ∧ t.halt = true) ∧ (r.status ≠ .ok → r.data = t.cause.data) ∧
      (r.status = .ok → ∀ i : Instr, decode w = .ok i →
        (∀ rd, destReg i = some rd → r.data = t.q[rd]) ∧
          (∀ ra, i = .ftrunc ra → r.data = (s.q[ra].extractLsb' 8 8).signExtend 16) ∧
          (∀ ra, i = .fisint ra → r.data = if s.q[ra].toNat % 256 = 0 then 0x0001#16 else 0x0000#16) ∧
          (∀ ra rb, i = .fcmp ra rb →
            r.data = if s.q[ra].toInt < s.q[rb].toInt then 0xFFFF#16
              else if s.q[ra].toInt > s.q[rb].toInt then 0x0001#16 else 0x0000#16) ∧
          (∀ ra, i = .fget ra → r.data = s.q[ra]) ∧ (i = .advance ∨ i = .draw → r.data = 0x0000#16))

/-- R35: the status outputs are copies of the state. -/
def Obligations.StatusOutputsCopyTheState : Prop :=
  ∀ s : State,
    s.faultOut = s.halt ∧
      s.causeOut = (match s.cause with | .none => 0#2 | .illegal => 1#2 | .divzero => 2#2 | .range => 3#2) ∧
      s.fcmdOut = s.fcmd ∧ s.pxOut = s.ball.position.x ∧ s.pyOut = s.ball.position.y ∧
      s.vxOut = s.ball.velocity.x ∧ s.vyOut = s.ball.velocity.y

/- ### Steps (00_scope.md R7, R9; 30_encoding.md R84) -/

/-- R84: a halted block answers HALTED and does not decode; an accepted word that is no command raises ILLEGAL; any other is
executed by its rule. The last clause, about `withFetchWord`, is the model's choice (log 1): the word it offers is the next one
accepted. -/
def Obligations.StepRunsTheAcceptedWord : Prop :=
  ∀ (s : State) (w : CmdWord) (rest : List Input), s.cfg.wf = true → s.inputs = .command w :: rest →
    (s.halt = true → step s = .next
      { s with inputs := rest, rsp := some { status := .halted, data := s.cause.data } }) ∧
    (s.halt = false → (∀ i, decode w ≠ .ok i) → step s = .next
      { s with
        inputs := rest, halt := true, cause := .illegal, fcmd := w,
        rsp := some { status := .fault, data := 0x0001#16 } }) ∧
    (s.halt = false → ∀ i, decode w = .ok i → step s = exec i { s with inputs := rest }) ∧
    (s.halt = false → ∀ (n : Nat) (i : Instr), decode (BitVec.ofNat 32 n) = .ok i → step (s.withFetchWord 32 n) = exec i s)

/-- R211 and log 10 (the model's choice): a block to which nothing is offered stays as it is. -/
def Obligations.IdleBlockStaysAsItIs : Prop :=
  ∀ s : State, s.cfg.wf = true → s.inputs = [] → step s = .next s

/-- R7: the configuration is well formed when the six conditions hold, the extents are then at most 94, and the model refuses
any other configuration. -/
def Obligations.IllFormedConfigurationIsRefused : Prop :=
  (∀ c : Config, c.wf = true ↔ 1 ≤ c.pfW ∧ 1 ≤ c.pfH ∧ 1 ≤ c.pfLeft ∧ 1 ≤ c.pfTop ∧
      c.pfLeft + c.pfW ≤ 95 ∧ c.pfTop + c.pfH ≤ 95) ∧
    (∀ c : Config, c.wf = true → c.pfW ≤ 94 ∧ c.pfH ≤ 94) ∧
      ∀ s : State, s.cfg.wf = false → step s = .refused .illFormedConfig

/-- R9: one step is a total function: with a well-formed configuration every state has a next state. For a state with no input
that next state is the model's choice (log 10), since R9's step is one of an offered command. -/
def Obligations.EveryStepAnswers : Prop :=
  ∀ s : State, s.cfg.wf = true → ∃ t, step s = .next t

/- ### The FixedPoint unit's commands (40_fixedpoint.md) -/

/-- R115. -/
def Obligations.FrawWritesThePattern : Prop :=
  ∀ (rd : Reg) (imm : Word) (s : State),
    EncodedAs (.fraw rd imm) (0x01000000 + rd.val * 2 ^ 20 + imm.toNat) ∧
      exec (.fraw rd imm) s = .next
        { s with q := s.q.set rd.val imm rd.isLt, rsp := some { status := .ok, data := imm } }

/-- R116, R101: the integer's 8 bits above a zero fraction byte. -/
def Obligations.FintWritesTheScaledInteger : Prop :=
  ∀ (rd : Reg) (n : Int) (s : State), -128 ≤ n → n ≤ 127 →
    EncodedAs (.fint rd n) (0x02000000 + rd.val * 2 ^ 20 + (n % 256).toNat) ∧
      exec (.fint rd n) s = .next
        { s with
          q := s.q.set rd.val (BitVec.ofInt 8 n ++ 0x00#8) rd.isLt,
          rsp := some { status := .ok, data := BitVec.ofInt 8 n ++ 0x00#8 } } ∧
      (BitVec.ofInt 8 n ++ 0x00#8 : Word).toInt = n * 256

/-- R117. -/
def Obligations.FzeroWritesZero : Prop :=
  ∀ (rd : Reg) (s : State),
    EncodedAs (.fzero rd) (0x03000000 + rd.val * 2 ^ 20) ∧
      exec (.fzero rd) s = .next
        { s with q := s.q.set rd.val 0x0000#16 rd.isLt, rsp := some { status := .ok, data := 0x0000#16 } }

/-- R118. -/
def Obligations.FoneWritesOne : Prop :=
  ∀ (rd : Reg) (s : State),
    EncodedAs (.fone rd) (0x04000000 + rd.val * 2 ^ 20) ∧
      exec (.fone rd) s = .next
        { s with q := s.q.set rd.val 0x0100#16 rd.isLt, rsp := some { status := .ok, data := 0x0100#16 } }

/-- R119, R82: the copy; a register copied to itself, NOP among these, changes no state but the response. -/
def Obligations.FmovCopies : Prop :=
  (∀ (rd ra : Reg) (s : State),
    EncodedAs (.fmov rd ra) (0x05000000 + rd.val * 2 ^ 20 + ra.val * 2 ^ 16) ∧
      exec (.fmov rd ra) s = .next
        { s with q := s.q.set rd.val s.q[ra] rd.isLt, rsp := some { status := .ok, data := s.q[ra] } }) ∧
    (∀ (r : Reg) (s : State), exec (.fmov r r) s = .next { s with rsp := some { status := .ok, data := s.q[r] } }) ∧
      EncodedAs Instr.nop 0x05000000 ∧ ∀ s : State, exec Instr.nop s = .next { s with rsp := some { status := .ok, data := s.q[0] } }

/-- R120, R104: the sum modulo 2^16 of the operands, on either reading. -/
def Obligations.FaddWrapsTheSum : Prop :=
  ∀ (rd ra rb : Reg) (s : State),
    EncodedAs (.fadd rd ra rb) (0x10000000 + rd.val * 2 ^ 20 + ra.val * 2 ^ 16 + rb.val * 2 ^ 12) ∧
      exec (.fadd rd ra rb) s = .next
        { s with
          q := s.q.set rd.val (BitVec.ofInt 16 (s.q[ra].toInt + s.q[rb].toInt)) rd.isLt,
          rsp := some { status := .ok, data := BitVec.ofInt 16 (s.q[ra].toInt + s.q[rb].toInt) } } ∧
      (BitVec.ofInt 16 (s.q[ra].toInt + s.q[rb].toInt)).toNat = (s.q[ra].toNat + s.q[rb].toNat) % 65536

/-- R121, R105: the difference modulo 2^16 of the operands, on either reading. -/
def Obligations.FsubWrapsTheDifference : Prop :=
  ∀ (rd ra rb : Reg) (s : State),
    EncodedAs (.fsub rd ra rb) (0x11000000 + rd.val * 2 ^ 20 + ra.val * 2 ^ 16 + rb.val * 2 ^ 12) ∧
      exec (.fsub rd ra rb) s = .next
        { s with
          q := s.q.set rd.val (BitVec.ofInt 16 (s.q[ra].toInt - s.q[rb].toInt)) rd.isLt,
          rsp := some { status := .ok, data := BitVec.ofInt 16 (s.q[ra].toInt - s.q[rb].toInt) } } ∧
      ((BitVec.ofInt 16 (s.q[ra].toInt - s.q[rb].toInt)).toNat : Int) = ((s.q[ra].toNat : Int) - s.q[rb].toNat) % 65536

/-- R122, R106: the exact negative, but for `0x8000`, which negates to itself; `0x0000` and `0x8000` are the only fixed
points. -/
def Obligations.FnegNegates : Prop :=
  ∀ (rd ra : Reg) (s : State),
    EncodedAs (.fneg rd ra) (0x12000000 + rd.val * 2 ^ 20 + ra.val * 2 ^ 16) ∧
      ∃ v : Word, exec (.fneg rd ra) s = .next
          { s with q := s.q.set rd.val v rd.isLt, rsp := some { status := .ok, data := v } } ∧
        v = BitVec.ofInt 16 (-s.q[ra].toInt) ∧
        (s.q[ra] ≠ 0x8000#16 → v.toInt = -s.q[ra].toInt) ∧ (s.q[ra] = 0x8000#16 → v = 0x8000#16) ∧
        (v = s.q[ra] ↔ s.q[ra] = 0x0000#16 ∨ s.q[ra] = 0x8000#16)

/-- R123, R107: the 32-bit signed product, which never overflows, shifted right arithmetically by 8, low 16 bits. -/
def Obligations.FmulTruncatesTheProduct : Prop :=
  ∀ (rd ra rb : Reg) (s : State),
    EncodedAs (.fmul rd ra rb) (0x13000000 + rd.val * 2 ^ 20 + ra.val * 2 ^ 16 + rb.val * 2 ^ 12) ∧
      (s.q[ra].signExtend 32 * s.q[rb].signExtend 32).toInt = s.q[ra].toInt * s.q[rb].toInt ∧
      exec (.fmul rd ra rb) s = .next
        { s with
          q := s.q.set rd.val (((s.q[ra].signExtend 32 * s.q[rb].signExtend 32).sshiftRight 8).setWidth 16) rd.isLt,
          rsp := some
            { status := .ok,
              data := ((s.q[ra].signExtend 32 * s.q[rb].signExtend 32).sshiftRight 8).setWidth 16 } }

/-- R124, R108: with a non-zero divisor, the 32-bit signed quotient of the dividend shifted left by 8, rounded toward zero, low
16 bits; with a zero divisor DIVZERO, and the destination is not written. -/
def Obligations.FdivDividesOrRaisesDivzero : Prop :=
  ∀ (rd ra rb : Reg) (s : State),
    EncodedAs (.fdiv rd ra rb) (0x14000000 + rd.val * 2 ^ 20 + ra.val * 2 ^ 16 + rb.val * 2 ^ 12) ∧
      (s.q[rb] ≠ 0x0000#16 → exec (.fdiv rd ra rb) s = .next
        { s with
          q := s.q.set rd.val (((s.q[ra].signExtend 32 <<< 8).sdiv (s.q[rb].signExtend 32)).setWidth 16) rd.isLt,
          rsp := some
            { status := .ok, data := ((s.q[ra].signExtend 32 <<< 8).sdiv (s.q[rb].signExtend 32)).setWidth 16 } } ∧
        ((s.q[ra].signExtend 32 <<< 8).sdiv (s.q[rb].signExtend 32)).toInt =
          Int.tdiv (s.q[ra].toInt * 256) s.q[rb].toInt) ∧
      (s.q[rb] = 0x0000#16 → exec (.fdiv rd ra rb) s = .next
        { s with
          halt := true, cause := .divzero,
          fcmd := BitVec.ofNat 32 (0x14000000 + rd.val * 2 ^ 20 + ra.val * 2 ^ 16 + rb.val * 2 ^ 12),
          rsp := some { status := .fault, data := 0x0002#16 } })

/-- R125, R109: the upper byte of the register, sign-extended, which is the floor of the value; no register is written. -/
def Obligations.FtruncAnswersTheFloor : Prop :=
  ∀ (ra : Reg) (s : State),
    EncodedAs (.ftrunc ra) (0x18000000 + ra.val * 2 ^ 16) ∧
      exec (.ftrunc ra) s = .next
        { s with rsp := some { status := .ok, data := (s.q[ra].extractLsb' 8 8).signExtend 16 } } ∧
      ((s.q[ra].extractLsb' 8 8).signExtend 16 : Word).toInt * 256 ≤ s.q[ra].toInt ∧
      s.q[ra].toInt < (((s.q[ra].extractLsb' 8 8).signExtend 16 : Word).toInt + 1) * 256

/-- R126, R110: 1 when the fraction byte is zero, else 0; no register is written. -/
def Obligations.FisintAnswersIntegrality : Prop :=
  ∀ (ra : Reg) (s : State),
    EncodedAs (.fisint ra) (0x19000000 + ra.val * 2 ^ 16) ∧
      exec (.fisint ra) s = .next
        { s with
          rsp := some { status := .ok, data := if s.q[ra].toNat % 256 = 0 then 0x0001#16 else 0x0000#16 } }

/-- R127, R111: one answer, from which every relation of the two registers follows, in the signed order; no register is
written. -/
def Obligations.FcmpAnswersTheSignedOrder : Prop :=
  ∀ (ra rb : Reg) (s : State),
    EncodedAs (.fcmp ra rb) (0x1A000000 + ra.val * 2 ^ 16 + rb.val * 2 ^ 12) ∧
      ∃ d : Word, exec (.fcmp ra rb) s = .next { s with rsp := some { status := .ok, data := d } } ∧
        (d = 0xFFFF#16 ∨ d = 0x0000#16 ∨ d = 0x0001#16) ∧
        (d = 0x0000#16 ↔ s.q[ra] = s.q[rb]) ∧ (d = 0xFFFF#16 ↔ s.q[ra].toInt < s.q[rb].toInt) ∧
        (d = 0x0001#16 ↔ s.q[ra].toInt > s.q[rb].toInt) ∧ (d ≠ 0x0000#16 ↔ s.q[ra] ≠ s.q[rb]) ∧
        (d ≠ 0x0001#16 ↔ s.q[ra].toInt ≤ s.q[rb].toInt) ∧ (d ≠ 0xFFFF#16 ↔ s.q[ra].toInt ≥ s.q[rb].toInt)

/-- R128. -/
def Obligations.FgetAnswersTheRegister : Prop :=
  ∀ (ra : Reg) (s : State),
    EncodedAs (.fget ra) (0x1B000000 + ra.val * 2 ^ 16) ∧
      exec (.fget ra) s = .next { s with rsp := some { status := .ok, data := s.q[ra] } }

/-- R131: a destination that is also a source: the sources are read first. -/
def Obligations.SourcesAreReadBeforeTheDestination : Prop :=
  ∀ (r : Reg) (s : State),
    exec (.fadd r r r) s = .next
      { s with
        q := s.q.set r.val (BitVec.ofInt 16 (2 * s.q[r].toInt)) r.isLt,
        rsp := some { status := .ok, data := BitVec.ofInt 16 (2 * s.q[r].toInt) } } ∧
    exec (.fneg r r) s = .next
      { s with
        q := s.q.set r.val (-s.q[r]) r.isLt, rsp := some { status := .ok, data := -s.q[r] } } ∧
    (s.q[r] ≠ 0x0000#16 → exec (.fdiv r r r) s = .next
      { s with q := s.q.set r.val 0x0100#16 r.isLt, rsp := some { status := .ok, data := 0x0100#16 } }) ∧
    (s.q[r] = 0x0000#16 → ∃ t, exec (.fdiv r r r) s = .next t ∧ t.q = s.q ∧ t.halt = true ∧ t.cause = .divzero)

/- ### The arithmetic laws (40_fixedpoint.md Part 3) -/

/-- R103: `0x0000` and `0x0100` are the additive and the multiplicative identity, and no other pattern is. -/
def Obligations.IdentityConstantsAreUnique : Prop :=
  fxZero = 0x0000#16 ∧ fxOne = 0x0100#16 ∧ (∀ a, fxAdd a fxZero = a) ∧ (∀ a, fxMul a fxOne = a) ∧
    (∀ z, (∀ a, fxAdd a z = a) → z = fxZero) ∧ ∀ o, (∀ a, fxMul a o = a) → o = fxOne

/-- R130: on integers the operations are those of the integers, wrapped to 8 signed bits when the result does not fit. -/
def Obligations.IntegerArithmeticIsPreserved : Prop :=
  ∀ m n : Int, -128 ≤ m → m ≤ 127 → -128 ≤ n → n ≤ 127 →
    (-128 ≤ m + n → m + n ≤ 127 → fxAdd (fxFromInt m) (fxFromInt n) = fxFromInt (m + n)) ∧
    (-128 ≤ m - n → m - n ≤ 127 → fxSub (fxFromInt m) (fxFromInt n) = fxFromInt (m - n)) ∧
    (-128 ≤ m * n → m * n ≤ 127 → fxMul (fxFromInt m) (fxFromInt n) = fxFromInt (m * n)) ∧
    fxAdd (fxFromInt m) (fxFromInt n) = fxFromInt ((m + n).bmod 256) ∧
    fxSub (fxFromInt m) (fxFromInt n) = fxFromInt ((m - n).bmod 256) ∧
    fxMul (fxFromInt m) (fxFromInt n) = fxFromInt ((m * n).bmod 256)

/-- R132: division keeps the fraction; an integer survives construction and truncation. -/
def Obligations.DivisionKeepsTheFraction : Prop :=
  fxDiv (fxFromInt 4) (fxFromInt 8) = some 0x0080#16 ∧ fxIsInt 0x0080#16 = false ∧
    fxMul 0x0080#16 (fxFromInt 2) = fxFromInt 1 ∧ fxDiv (fxFromInt 4) (fxFromInt 2) = some (fxFromInt 2) ∧
    fxDiv (fxFromInt 32) (fxFromInt 8) = some (fxFromInt 4) ∧
    ∀ n : Int, -128 ≤ n → n ≤ 127 → fxIsInt (fxFromInt n) = true ∧ fxFloor (fxFromInt n) = n

/-- R133: the further identities, and the two failures of the ring laws. -/
def Obligations.FurtherIdentitiesHold : Prop :=
  (∀ a b, fxAdd a b = fxAdd b a) ∧ (∀ a b, fxMul a b = fxMul b a) ∧
    (∀ a b c, fxAdd (fxAdd a b) c = fxAdd a (fxAdd b c)) ∧ (∀ a, fxAdd a fxZero = a) ∧ (∀ a, fxMul a fxOne = a) ∧
    (∀ a, fxDiv a fxOne = some a) ∧ (∀ a b, fxSub a b = fxAdd a (fxNeg b)) ∧ (∀ a, fxNeg (fxNeg a) = a) ∧
    (∀ a, fxSub a a = fxZero) ∧
    fxMul (fxMul 0x0001#16 0x0001#16) 0x8000#16 = 0x0000#16 ∧
    fxMul 0x0001#16 (fxMul 0x0001#16 0x8000#16) = 0xFFFF#16 ∧
    fxMul 0x0080#16 (fxAdd 0x0001#16 0x0001#16) = 0x0001#16 ∧
    fxAdd (fxMul 0x0080#16 0x0001#16) (fxMul 0x0080#16 0x0001#16) = 0x0000#16 ∧
    (∀ a : Word, fxFloor a = (a.extractLsb' 8 8).toInt) ∧
    ∀ a : Word, a = fxAdd (fxFromInt (fxFloor a)) ((a.extractLsb' 0 8).setWidth 16)

/- ### The integrator (41_integrator.md) -/

/-- R143. -/
def Obligations.BgetCopiesABallRegister : Prop :=
  ∀ (rd : Reg) (s : State),
    EncodedAs (.bget rd .px) (0x20000000 + rd.val * 2 ^ 20) ∧
    EncodedAs (.bget rd .py) (0x20000001 + rd.val * 2 ^ 20) ∧
    EncodedAs (.bget rd .vx) (0x20000002 + rd.val * 2 ^ 20) ∧
    EncodedAs (.bget rd .vy) (0x20000003 + rd.val * 2 ^ 20) ∧
    exec (.bget rd .px) s = .next
      { s with
        q := s.q.set rd.val s.ball.position.x rd.isLt, rsp := some { status := .ok, data := s.ball.position.x } } ∧
    exec (.bget rd .py) s = .next
      { s with
        q := s.q.set rd.val s.ball.position.y rd.isLt, rsp := some { status := .ok, data := s.ball.position.y } } ∧
    exec (.bget rd .vx) s = .next
      { s with
        q := s.q.set rd.val s.ball.velocity.x rd.isLt, rsp := some { status := .ok, data := s.ball.velocity.x } } ∧
    exec (.bget rd .vy) s = .next
      { s with
        q := s.q.set rd.val s.ball.velocity.y rd.isLt, rsp := some { status := .ok, data := s.ball.velocity.y } }

/-- R141, R142: ADVANCE answers from every state; it moves each axis by the axis rule, apart from the other, and writes the ball
and the response only. -/
def Obligations.AdvanceMovesEachAxisByTheAxisRule : Prop :=
  EncodedAs .advance 0x21000000 ∧
    ∀ s : State, s.cfg.wf = true →
      ∃ b : Ball, exec .advance s = .next { s with ball := b, rsp := some { status := .ok, data := 0x0000#16 } } ∧
        AxisRule s.ball.position.x s.ball.velocity.x s.cfg.pfW b.position.x b.velocity.x ∧
        AxisRule s.ball.position.y s.ball.velocity.y s.cfg.pfH b.position.y b.velocity.y

/-- R140, R142: the flip of one axis is the FixedPoint negation of that component alone, and a tick changes the velocity by such
flips only, each axis at most once. -/
def Obligations.VelocityChangesBySignFlipsOnly : Prop :=
  (∀ v : Vec2, v.flipX.x = -v.x ∧ v.flipX.y = v.y ∧ v.flipY.x = v.x ∧ v.flipY.y = -v.y ∧
    (v.x = 0x8000#16 → v.flipX = v) ∧ (v.x = 0x0000#16 → v.flipX = v) ∧
    (v.y = 0x8000#16 → v.flipY = v) ∧ (v.y = 0x0000#16 → v.flipY = v)) ∧
    ∀ s t : State, s.cfg.wf = true → exec .advance s = .next t →
      t.ball.velocity = s.ball.velocity ∨ t.ball.velocity = s.ball.velocity.flipX ∨
        t.ball.velocity = s.ball.velocity.flipY ∨ t.ball.velocity = s.ball.velocity.flipX.flipY

/-- R144: after ADVANCE from any state whatever the ball lies in the playfield. -/
def Obligations.TickEndsInThePlayfield : Prop :=
  ∀ s t : State, s.cfg.wf = true → exec .advance s = .next t →
    0 ≤ t.ball.position.x.toInt ∧ t.ball.position.x.toInt < s.cfg.pfW * 256 ∧
      0 ≤ t.ball.position.y.toInt ∧ t.ball.position.y.toInt < s.cfg.pfH * 256

/-- R145: one step from the right edge with a positive velocity, a tick clamps to the last column and flips the sign, and the
other axis keeps its velocity when it reaches no edge itself. -/
def Obligations.RightEdgeReflects : Prop :=
  ∀ s t : State, s.cfg.wf = true → exec .advance s = .next t → 0 < s.ball.velocity.x.toInt →
    s.cfg.pfW * 256 ≤ s.ball.position.x.toInt + s.ball.velocity.x.toInt →
    s.ball.position.x.toInt + s.ball.velocity.x.toInt ≤ 32767 →
    t.ball.position.x = fxFromInt (s.cfg.pfW - 1) ∧ t.ball.velocity.x = -s.ball.velocity.x ∧
      (0 ≤ s.ball.position.y.toInt + s.ball.velocity.y.toInt →
        s.ball.position.y.toInt + s.ball.velocity.y.toInt < s.cfg.pfH * 256 →
        t.ball.velocity.y = s.ball.velocity.y)

/-- R26: only ADVANCE and reset change the ball, over every kind of input. -/
def Obligations.OnlyAdvanceAndResetChangeTheBall : Prop :=
  ∀ s t : State, step s = .next t → t.ball ≠ s.ball →
    (∃ rest, s.inputs = .reset :: rest) ∨ ∃ rest, s.inputs = .command 0x21000000#32 :: rest

/-- R147, R166: along a run without a reset that ends not halted, the ball depends on the number of ADVANCE commands only, not
on what stands between them. -/
def Obligations.BallDependsOnTheNumberOfTicksOnly : Prop :=
  ∀ (l : List Input) (s t : State), s.cfg.wf = true → s.inputs = l → (∀ e ∈ l, e.isReset = false) →
    Host.Core.run Sys2Proof.core l.length s = .next t → t.halt = false →
    t.ball = Ball.ticks s.cfg (l.countP Input.isAdvance) s.ball

/-- R146: in every state that meets the invariant of reset the add of a tick does not wrap. -/
def Obligations.TickSumsDoNotWrapFromReset : Prop :=
  ∀ s : State, s.Inv →
    (fxAdd s.ball.position.x s.ball.velocity.x).toInt = s.ball.position.x.toInt + s.ball.velocity.x.toInt ∧
      (fxAdd s.ball.position.y s.ball.velocity.y).toInt = s.ball.position.y.toInt + s.ball.velocity.y.toInt

/- ### The rasterizer (42_rasterizer.md) -/

/-- R163, R164: with the ball's floor in the playfield, DRAW answers; every byte of `FB` is then `0xFF` on the border ring and at
the ball's pixel and `0x00` elsewhere, and nothing else but the response changes. -/
def Obligations.DrawWritesTheWholeFrame : Prop :=
  EncodedAs .draw 0x22000000 ∧
    ∀ s : State, s.cfg.wf = true → FloorInPlayfield s.cfg s.ball →
      ∃ m : Memory, exec .draw s = .next { s with fb := m, rsp := some { status := .ok, data := 0x0000#16 } } ∧
        ∀ a : Nat, m.read a =
          if a < 18432 then
            some (if OnBorder s.cfg (a % 192 / 2) (a / 192) ∨ OnBall s.cfg s.ball (a % 192 / 2) (a / 192)
              then 0xFF#8 else 0x00#8)
          else none

/-- R164: a frame holds `2 * (2 * (PF_W + 2) + 2 * PF_H) + 2` bytes equal to `0xFF`, wherever the ball is in the playfield. -/
def Obligations.FrameHoldsItsNumberOfWhiteBytes : Prop :=
  ∀ (s t : State), s.cfg.wf = true → FloorInPlayfield s.cfg s.ball → exec .draw s = .next t →
    t.fb.cells.countP (fun c => c.2 == 0xFF#8) = 2 * (2 * (s.cfg.pfW + 2) + 2 * s.cfg.pfH) + 2

/-- R165: with the ball's floor outside the playfield DRAW raises RANGE and writes no byte; no state of the invariant meets the
condition. -/
def Obligations.DrawOutsideThePlayfieldRaisesRange : Prop :=
  (∀ s : State, ¬FloorInPlayfield s.cfg s.ball → exec .draw s = .next
    { s with
      halt := true, cause := .range, fcmd := 0x22000000#32, rsp := some { status := .fault, data := 0x0003#16 } }) ∧
    ∀ s : State, s.Inv → FloorInPlayfield s.cfg s.ball

/-- R163: the byte writes in the order the rule lists them (the zeroed buffer, the ring, the ball) all fall on addresses of
`FB` and leave, over any earlier contents, exactly the frame that DRAW stores. -/
def Obligations.FrameIsTheSequenceOfWrites : Prop :=
  ∀ (s t : State), s.cfg.wf = true → s.fb.wf = true → FloorInPlayfield s.cfg s.ball → exec .draw s = .next t →
    s.fb.writeAll (drawWrites s.cfg (fxFloor s.ball.position.x) (fxFloor s.ball.position.y)) = some t.fb

/-- R161: the ring's pixels, their number, that they are display pixels, and that none is a playfield pixel. -/
def Obligations.BorderRingIsOnePixelAround : Prop :=
  ∀ c : Config, c.wf = true →
    (∀ x y : Nat, (x, y) ∈ ring c ↔ OnBorder c x y) ∧ (ring c).length = 2 * (c.pfW + 2) + 2 * c.pfH ∧
      (∀ p ∈ ring c, p.1 ≤ 95 ∧ p.2 ≤ 95) ∧
      ∀ p ∈ ring c, ¬(c.pfLeft ≤ p.1 ∧ p.1 < c.pfLeft + c.pfW ∧ c.pfTop ≤ p.2 ∧ p.2 < c.pfTop + c.pfH)

/-- R162: while the ball invariant holds the ball's pixel is a display pixel of the interior and not of the ring. -/
def Obligations.BallPixelIsInTheInterior : Prop :=
  ∀ s : State, s.cfg.wf = true → s.BallInPlayfield →
    FloorInPlayfield s.cfg s.ball ∧
      ∀ x y : Nat, OnBall s.cfg s.ball x y →
        s.cfg.pfLeft ≤ x ∧ x < s.cfg.pfLeft + s.cfg.pfW ∧ s.cfg.pfTop ≤ y ∧ y < s.cfg.pfTop + s.cfg.pfH ∧
          ¬OnBorder s.cfg x y

/-- R53, R54: in a frame every pixel reads black or full white, whichever byte the sink takes as the high half. -/
def Obligations.PixelByteOrderCannotBeObserved : Prop :=
  ∀ (s t : State) (x y : Nat), FloorInPlayfield s.cfg s.ball → exec .draw s = .next t → x < 96 → y < 96 →
    t.pixelValue .highFirst x y = t.pixelValue .lowFirst x y ∧
      (t.pixelValue .highFirst x y = some 0x0000#16 ∨ t.pixelValue .highFirst x y = some 0xFFFF#16)

/-- R20: the operand registers and the fault record never influence what ADVANCE and DRAW compute. R20's exception, that
`HALT = 1` refuses the two commands, is not in `exec` but in the step before it (log 18), so it holds here of states that differ
in `HALT` too. -/
def Obligations.OperandsNeverInfluenceTheBallOrTheFrame : Prop :=
  ∀ s s' t t' : State, s.cfg = s'.cfg → s.ball = s'.ball →
    (exec .advance s = .next t → exec .advance s' = .next t' → t.ball = t'.ball) ∧
      (FloorInPlayfield s.cfg s.ball → exec .draw s = .next t → exec .draw s' = .next t' → t.fb = t'.fb)

/- ### Frames of all commands -/

/-- What each command leaves alone (the templates of 40_fixedpoint.md Part 2, R142, R143, R163): every register but the
destination; the ball, but for ADVANCE; every byte of `FB`, but for DRAW; the fault record, but for FDIV and DRAW; and
nothing but the fault record and the response when a fault is entered. -/
def Obligations.CommandsLeaveTheRestAlone : Prop :=
  ∀ (i : Instr) (s t : State), exec i s = .next t →
    (∀ r : Reg, destReg i ≠ some r → t.q[r] = s.q[r]) ∧
      (i ≠ .advance → t.ball = s.ball) ∧
      (i ≠ .draw → ∀ a : Nat, t.memRead a = s.memRead a) ∧
      ((∀ rd ra rb, i ≠ .fdiv rd ra rb) → i ≠ .draw → t.halt = s.halt ∧ t.cause = s.cause ∧ t.fcmd = s.fcmd) ∧
      (s.halt = false → t.halt = true →
        t.q = s.q ∧ t.ball = s.ball ∧ ∀ a : Nat, t.memRead a = s.memRead a) ∧
      t.cfg = s.cfg ∧ t.inputs = s.inputs ∧ t.fbRaddr = s.fbRaddr ∧ t.resets = s.resets ∧ t.sinkReads = s.sinkReads

/- ### Faults and the halted state (60_exceptions.md) -/

/-- R185: fault entry writes `HALT`, `CAUSE`, `FCMD` and the FAULT response with the fault's code, and nothing else. -/
def Obligations.FaultEntryWritesTheRecordOnly : Prop :=
  ∀ (s : State) (c : Cause) (w : CmdWord),
    s.raise c w =
      { s with
        halt := true, cause := c, fcmd := w,
        rsp := some
          { status := .fault,
            data := match c with
              | .none => 0x0000#16
              | .illegal => 0x0001#16
              | .divzero => 0x0002#16
              | .range => 0x0003#16 } }

/-- R180, R188: a step that halts the block does so for one of the three causes, recorded with the command's word. -/
def Obligations.FaultsHaveExactlyTheirCauses : Prop :=
  ∀ s t : State, step s = .next t → s.halt = false → t.halt = true →
    ∃ w rest, s.inputs = .command w :: rest ∧ t.fcmd = w ∧
      ((t.cause = .illegal ∧ ∀ i, decode w ≠ .ok i) ∨
        (t.cause = .divzero ∧ ∃ rd ra rb : Reg, decode w = .ok (.fdiv rd ra rb) ∧ s.q[rb] = 0x0000#16) ∨
        (t.cause = .range ∧ decode w = .ok .draw ∧ ¬FloorInPlayfield s.cfg s.ball))

/-- R189: an accepted command either answers OK and leaves the fault record, or leaves the state before it with only the fault
record and the response changed. -/
def Obligations.FaultsArePrecise : Prop :=
  ∀ (s t : State) (w : CmdWord) (rest : List Input), s.inputs = .command w :: rest → s.halt = false → step s = .next t →
    (t.halt = false ∧ t.cause = s.cause ∧ t.fcmd = s.fcmd ∧ ∃ d, t.rsp = some { status := .ok, data := d }) ∨
      (t.cause ≠ .none ∧ t =
        { s with
          inputs := rest, halt := true, cause := t.cause, fcmd := w,
          rsp := some { status := .fault, data := t.cause.data } })

/-- R186: a halted block answers every command, legal or not, HALTED with its cause and changes no state; the sink's port keeps
working. -/
def Obligations.HaltedBlockAnswersAndChangesNothing : Prop :=
  ∀ (s : State) (rest : List Input), s.cfg.wf = true → s.halt = true →
    s.GoneWrong ∧
      (∀ w : CmdWord, s.inputs = .command w :: rest → step s = .next
        { s with inputs := rest, rsp := some { status := .halted, data := s.cause.data } }) ∧
      ∀ a : BitVec 15, s.inputs = .sinkRead a :: rest → a.toNat < 18432 →
        ∃ t, step s = .next t ∧ some t.fbRdata = s.memRead a.toNat ∧ t.fb = s.fb ∧ t.halt = true

/-- R187: nothing but a reset leaves the halted state, and until then the fault record stays that of the first fault. -/
def Obligations.OnlyResetLeavesTheHaltedState : Prop :=
  ∀ s t : State, step s = .next t → s.halt = true →
    (t.halt = false → ∃ rest, s.inputs = .reset :: rest) ∧
      ((∀ rest, s.inputs ≠ .reset :: rest) → t.halt = true ∧ t.cause = s.cause ∧ t.fcmd = s.fcmd)

/- ### Reset and the invariant (10_state.md, 70_reset_and_hazards.md) -/

/-- R34, R210: from any state, halted or not, a reset gives the values of the table; `FB` is unspecified, a free byte at every
address (log 5, the model's form of it). What lies outside the block stays (log 2). -/
def Obligations.ResetGivesTheResetState : Prop :=
  ∀ (s : State) (rest : List Input), s.cfg.wf = true → s.inputs = .reset :: rest →
    ∃ t, step s = .next t ∧ (∀ r : Reg, t.q[r] = 0x0000#16) ∧
      t.ball = { position := { x := 0x0000#16, y := 0x0000#16 }, velocity := { x := 0x02D8#16, y := 0x02D8#16 } } ∧
      t.halt = false ∧ t.cause = .none ∧ t.fcmd = 0x00000000#32 ∧ t.rsp = none ∧
      (∀ a : Nat, a < 18432 → t.memRead a = some (Config.fbAtReset (s.resets + 1) a)) ∧
      t.cfg = s.cfg ∧ t.inputs = rest ∧ t.fbRaddr = s.fbRaddr ∧ t.sinkReads = s.sinkReads

/-- R24, R25, R29, R30, R34, R146: the state after reset meets the invariant, for every well-formed configuration. Its clause on
`FB` rests on log 5, its clause on the response of a halted block on log 9. -/
def Obligations.ResetMeetsTheInvariant : Prop :=
  ∀ c : Config, c.wf = true → (State.resetWith c).Inv

/-- R25, R26, R29, R30, R53, R146, R165: every step, of whatever input, keeps the invariant. Its clause `haltAnswered`, that a
halted block shows FAULT or HALTED with its cause, follows from R36, R79, R185 and R186 together with log 9 (the model's reading:
the response stays until the next one or a reset); what an unwritten `FB` lists is log 5's. -/
def Obligations.EveryStepKeepsTheInvariant : Prop :=
  ∀ s t : State, s.Inv → step s = .next t → t.Inv

/-- R50: every step keeps the frame buffer's canonical form, from any state that has it. -/
def Obligations.EveryStepKeepsTheFrameBufferCanonical : Prop :=
  ∀ s t : State, s.fb.wf = true → step s = .next t → t.fb.wf = true

/- ### The frame buffer's layout and the sink (20_memory.md) -/

/-- R51, R52: a display pixel owns two bytes of its row, both in `FB`; the byte's address gives the pixel back; every byte of
`FB` is owned by a display pixel. -/
def Obligations.PixelsPartitionTheFrameBuffer : Prop :=
  (∀ x y : Nat, x < 96 → y < 96 →
    pixAddr x y + 1 < 18432 ∧ 192 * y ≤ pixAddr x y ∧ pixAddr x y + 1 ≤ 192 * y + 191 ∧
      columnOf (pixAddr x y) = x ∧ rowOf (pixAddr x y) = y ∧
      columnOf (pixAddr x y + 1) = x ∧ rowOf (pixAddr x y + 1) = y) ∧
    ∀ a : Nat, a < 18432 → columnOf a < 96 ∧ rowOf a < 96 ∧
      (a = pixAddr (columnOf a) (rowOf a) ∨ a = pixAddr (columnOf a) (rowOf a) + 1)

/-- R57, R58: a sink read inside `FB` gives the byte of `FB`; a read anywhere changes nothing but the port's address (and the
model's own count of reads); outside `FB` no byte of `FB` is meant. -/
def Obligations.SinkReadsTheFrameBufferAndChangesNothing : Prop :=
  ∀ (s : State) (a : BitVec 15) (rest : List Input), s.cfg.wf = true → s.inputs = .sinkRead a :: rest →
    ∃ t, step s = .next t ∧ t = { s with inputs := rest, fbRaddr := a, sinkReads := s.sinkReads + 1 } ∧
      (a.toNat < 18432 → some t.fbRdata = s.memRead a.toNat) ∧ (18432 ≤ a.toNat → t.memRead a.toNat = none)

/-- R60, R56: along a run with no DRAW and no reset every byte of `FB` stays, whatever else is performed. -/
def Obligations.FrameStaysUntilTheNextDraw : Prop :=
  ∀ (l : List Input) (s t : State), s.inputs = l → (∀ e ∈ l, e.isReset = false ∧ e.isDraw = false) →
    Host.Core.run Sys2Proof.core l.length s = .next t → ∀ a : Nat, t.memRead a = s.memRead a
end

