-- ==== Sys2Proof/Laws/Encoding.lean ====
section
/-! SUPPORT. What a laid-out command word's fields read, and that the row a word fits decides its decoding
(spec/30_encoding.md R71 to R73). -/

namespace Sys2Proof

theorem regLayout_op (o : Op) (rd ra rb : BitVec 4) : (regLayout o rd ra rb).extractLsb' 24 8 = o.code := by
  ext i hi
  simp [regLayout, Op.pattern]
  interval_cases i <;> simp

theorem regLayout_rd (o : Op) (rd ra rb : BitVec 4) : (regLayout o rd ra rb).extractLsb' 20 4 = rd := by
  ext i hi
  simp [regLayout, Op.pattern]
  interval_cases i <;> simp

theorem regLayout_ra (o : Op) (rd ra rb : BitVec 4) : (regLayout o rd ra rb).extractLsb' 16 4 = ra := by
  ext i hi
  simp [regLayout, Op.pattern]
  interval_cases i <;> simp

theorem regLayout_rb (o : Op) (rd ra rb : BitVec 4) : (regLayout o rd ra rb).extractLsb' 12 4 = rb := by
  ext i hi
  simp [regLayout, Op.pattern]
  interval_cases i <;> simp

theorem immLayout_op (o : Op) (rd : BitVec 4) (imm : Word) : (immLayout o rd imm).extractLsb' 24 8 = o.code := by
  ext i hi
  simp [immLayout, Op.pattern]
  interval_cases i <;> simp

theorem immLayout_rd (o : Op) (rd : BitVec 4) (imm : Word) : (immLayout o rd imm).extractLsb' 20 4 = rd := by
  ext i hi
  simp [immLayout, Op.pattern]
  interval_cases i <;> simp

theorem immLayout_imm16 (o : Op) (rd : BitVec 4) (imm : Word) : (immLayout o rd imm).extractLsb' 0 16 = imm := by
  ext i hi
  simp [immLayout, Op.pattern]
  interval_cases i <;> simp

theorem immLayout_imm8 (o : Op) (rd : BitVec 4) (imm : BitVec 8) :
    (immLayout o rd (imm.setWidth 16)).extractLsb' 0 8 = imm := by
  ext i hi
  simp [immLayout, Op.pattern]
  interval_cases i <;> simp

theorem immLayout_sel (o : Op) (rd : BitVec 4) (sel : BitVec 2) :
    (immLayout o rd (sel.setWidth 16)).extractLsb' 0 2 = sel := by
  ext i hi
  simp [immLayout, Op.pattern]
  interval_cases i <;> simp

/-- A word that fits a row has the row's opcode. -/
theorem opField_of_fits {o : Op} {w : CmdWord} (h : o.fits w = true) : opField w = o.code := by
  have hw : w &&& o.format.mask = o.pattern := by simpa [Op.fits] using h
  have := congrArg (fun v : CmdWord => v.extractLsb' 24 8) hw
  have ones : ∀ v : BitVec 8, v &&& 255#8 = v := fun _ => BitVec.and_allOnes
  rw [opField]
  cases o <;> simpa [Op.format, Format.mask, Op.pattern, Op.code, BitVec.extractLsb'_and, ones] using this

/-- No two rows have the same opcode (R73). -/
theorem code_injective {o p : Op} (h : o.code = p.code) : o = p := by
  revert h; cases o <;> cases p <;> decide

theorem mem_all (o : Op) : o ∈ Op.all := by cases o <;> decide

/-- The row a word fits is the one its command is read from (R72). -/
theorem decode_of_fits {o : Op} {w : CmdWord} (h : o.fits w = true) : decode w = .ok (o.operands w) := by
  unfold decode
  cases hf : Op.all.find? (fun o => o.fits w) with
  | none => exact absurd h (by simpa using List.find?_eq_none.mp hf o (mem_all o))
  | some p =>
    have hp : p.fits w = true := by simpa using List.find?_some hf
    rw [code_injective ((opField_of_fits hp).symm.trans (opField_of_fits h))]

/-- A word is a command exactly when it fits some row (R75). -/
theorem decode_ok_iff (w : CmdWord) (i : Instr) : decode w = .ok i ↔ ∃ o : Op, o.fits w = true ∧ i = o.operands w := by
  constructor
  · intro h
    unfold decode at h
    split at h
    · rename_i o hf
      exact ⟨o, by simpa using List.find?_some hf, by simpa using h.symm⟩
    · split at h <;> cases h
  · rintro ⟨o, h, rfl⟩
    exact decode_of_fits h

theorem operands_op (o : Op) (w : CmdWord) : (o.operands w).op = o := by cases o <;> rfl

end Sys2Proof
end

