-- ==== Sys2Proof/Laws/FixedPoint.lean ====
section
/-! SUPPORT. What narrowing to 16 bits does to an integer, and the bounds of the readings
(spec/00_scope.md R10, R11; 40_fixedpoint.md R101, R109). -/

namespace Sys2Proof.Machine

theorem word_toInt_lower (a : Word) : -32768 ≤ a.toInt := by
  have := a.le_toInt; simpa using this

theorem word_toInt_upper (a : Word) : a.toInt ≤ 32767 := by
  have := a.toInt_lt; omega

/-- Narrowing an integer that fits loses nothing. -/
theorem toInt_trunc16_of_fits {v : Int} (lo : -32768 ≤ v) (hi : v ≤ 32767) : (trunc16 v).toInt = v := by
  simp only [trunc16, BitVec.toInt_ofInt]
  exact Int.bmod_eq_of_le_mul_two (by omega) (by omega)

/-- Narrowing is a function of the integer modulo `2^16`. -/
theorem trunc16_eq_of_emod {v w : Int} (h : v % 65536 = w % 65536) : trunc16 v = trunc16 w := by
  apply BitVec.eq_of_toInt_eq
  simp only [trunc16, BitVec.toInt_ofInt, Int.bmod_def]
  norm_num
  rw [h]

@[simp] theorem trunc16_toInt (a : Word) : trunc16 a.toInt = a := by simp [trunc16]

theorem asr8_eq (v : Int) : asr v 8 = v / 256 := by simp [asr]

theorem fxFloor_eq (a : Word) : fxFloor a = a.toInt / 256 := by simp [fxFloor, asr]

theorem fxFloor_bounds (a : Word) : -128 ≤ fxFloor a ∧ fxFloor a ≤ 127 := by
  have := word_toInt_lower a
  have := word_toInt_upper a
  rw [fxFloor_eq]; omega

theorem toInt_fxFromInt {n : Int} (lo : -128 ≤ n) (hi : n ≤ 127) : (fxFromInt n).toInt = n * 256 :=
  toInt_trunc16_of_fits (by omega) (by omega)

theorem fxDiv_zero (a : Word) : fxDiv a 0x0000#16 = none := rfl

theorem fxDiv_of_ne_zero (a : Word) {b : Word} (h : b ≠ 0x0000#16) :
    fxDiv a b = some (trunc16 (tdiv (a.toInt * 256) b.toInt)) := if_neg h

end Sys2Proof.Machine
end

