-- ==== Sys2Proof/Laws/Integrator.lean ====
section
/-! SUPPORT. What one axis of a tick can do (spec/41_integrator.md R141, R144). -/

namespace Sys2Proof.Machine

/-- The three outcomes of one axis: reflected at the low edge, reflected at the high edge, or moved. At most one edge
acts, since the low edge leaves the position at zero, which lies below every extent (R141 (b)). -/
theorem axisStep_cases (p v : Word) {ext : Int} (lo : 1 ≤ ext) (hi : ext ≤ 94) :
    ((fxAdd p v).toInt < 0 ∧ axisStep p v ext = (0x0000#16, fxNeg v)) ∨
      (ext * 256 ≤ (fxAdd p v).toInt ∧ axisStep p v ext = (fxFromInt (ext - 1), fxNeg v)) ∨
        (0 ≤ (fxAdd p v).toInt ∧ (fxAdd p v).toInt < ext * 256 ∧ axisStep p v ext = (fxAdd p v, v)) := by
  have hext : (fxFromInt ext).toInt = ext * 256 := toInt_fxFromInt (by omega) (by omega)
  have hz : (fxZero).toInt = 0 := rfl
  by_cases hlow : (fxAdd p v).toInt < 0
  · left
    refine ⟨hlow, ?_⟩
    simp only [axisStep, reflectLow, reflectHigh, fxLt, fxGe, hext, hz, hlow, decide_true, if_true]
    rw [if_neg (by simp only [decide_eq_true_eq]; omega)]
    rfl
  · right
    by_cases hhigh : ext * 256 ≤ (fxAdd p v).toInt
    · left
      refine ⟨hhigh, ?_⟩
      simp only [axisStep, reflectLow, reflectHigh, fxLt, fxGe, hz, hlow, decide_false, if_false, Bool.false_eq_true, hext]
      rw [if_pos (by simp only [decide_eq_true_eq]; omega)]
    · right
      refine ⟨by omega, by omega, ?_⟩
      simp only [axisStep, reflectLow, reflectHigh, fxLt, fxGe, hz, hlow, decide_false, if_false, Bool.false_eq_true, hext]
      rw [if_neg (by simp only [decide_eq_true_eq]; omega)]

/-- One axis ends inside its extent, from any position and velocity. -/
theorem axisStep_bounds (p v : Word) {ext : Int} (lo : 1 ≤ ext) (hi : ext ≤ 94) :
    0 ≤ (axisStep p v ext).1.toInt ∧ (axisStep p v ext).1.toInt < ext * 256 := by
  rcases axisStep_cases p v lo hi with ⟨-, h⟩ | ⟨-, h⟩ | ⟨h₁, h₂, h⟩
  · rw [h]; exact ⟨le_refl (0 : Int), by change (0 : Int) < _; omega⟩
  · rw [h]
    change 0 ≤ (fxFromInt (ext - 1)).toInt ∧ (fxFromInt (ext - 1)).toInt < ext * 256
    rw [toInt_fxFromInt (by omega) (by omega)]; omega
  · rw [h]; exact ⟨h₁, h₂⟩

/-- One axis keeps its velocity or flips its sign once. -/
theorem axisStep_velocity (p v : Word) {ext : Int} (lo : 1 ≤ ext) (hi : ext ≤ 94) :
    (axisStep p v ext).2 = v ∨ (axisStep p v ext).2 = fxNeg v := by
  rcases axisStep_cases p v lo hi with ⟨-, h⟩ | ⟨-, h⟩ | ⟨-, -, h⟩ <;> simp [h]

end Sys2Proof.Machine
end

