-- ==== Sys2Proof/Laws/State.lean ====
section
/-! SUPPORT. Each field after each update of State, true by definition, so that no proof unfolds an update; and what the
register accessors read. -/

namespace Sys2Proof.Machine

variable (s : State)

@[simp] theorem State.writeReg_q (i : Reg) (v : Word) : (s.writeReg i v).q = s.q.set i.val v i.isLt := rfl
@[simp] theorem State.writeReg_ball (i : Reg) (v : Word) : (s.writeReg i v).ball = s.ball := rfl
@[simp] theorem State.writeReg_fb (i : Reg) (v : Word) : (s.writeReg i v).fb = s.fb := rfl
@[simp] theorem State.writeReg_halt (i : Reg) (v : Word) : (s.writeReg i v).halt = s.halt := rfl
@[simp] theorem State.writeReg_cause (i : Reg) (v : Word) : (s.writeReg i v).cause = s.cause := rfl
@[simp] theorem State.writeReg_fcmd (i : Reg) (v : Word) : (s.writeReg i v).fcmd = s.fcmd := rfl
@[simp] theorem State.writeReg_rsp (i : Reg) (v : Word) : (s.writeReg i v).rsp = s.rsp := rfl
@[simp] theorem State.writeReg_fbRaddr (i : Reg) (v : Word) : (s.writeReg i v).fbRaddr = s.fbRaddr := rfl
@[simp] theorem State.writeReg_cfg (i : Reg) (v : Word) : (s.writeReg i v).cfg = s.cfg := rfl
@[simp] theorem State.writeReg_inputs (i : Reg) (v : Word) : (s.writeReg i v).inputs = s.inputs := rfl
@[simp] theorem State.writeReg_resets (i : Reg) (v : Word) : (s.writeReg i v).resets = s.resets := rfl
@[simp] theorem State.writeReg_sinkReads (i : Reg) (v : Word) : (s.writeReg i v).sinkReads = s.sinkReads := rfl

@[simp] theorem State.respond_q (st : Status) (d : Word) : (s.respond st d).q = s.q := rfl
@[simp] theorem State.respond_ball (st : Status) (d : Word) : (s.respond st d).ball = s.ball := rfl
@[simp] theorem State.respond_fb (st : Status) (d : Word) : (s.respond st d).fb = s.fb := rfl
@[simp] theorem State.respond_halt (st : Status) (d : Word) : (s.respond st d).halt = s.halt := rfl
@[simp] theorem State.respond_cause (st : Status) (d : Word) : (s.respond st d).cause = s.cause := rfl
@[simp] theorem State.respond_fcmd (st : Status) (d : Word) : (s.respond st d).fcmd = s.fcmd := rfl
@[simp] theorem State.respond_rsp (st : Status) (d : Word) : (s.respond st d).rsp = some { status := st, data := d } := rfl
@[simp] theorem State.respond_fbRaddr (st : Status) (d : Word) : (s.respond st d).fbRaddr = s.fbRaddr := rfl
@[simp] theorem State.respond_cfg (st : Status) (d : Word) : (s.respond st d).cfg = s.cfg := rfl
@[simp] theorem State.respond_inputs (st : Status) (d : Word) : (s.respond st d).inputs = s.inputs := rfl
@[simp] theorem State.respond_resets (st : Status) (d : Word) : (s.respond st d).resets = s.resets := rfl
@[simp] theorem State.respond_sinkReads (st : Status) (d : Word) : (s.respond st d).sinkReads = s.sinkReads := rfl

@[simp] theorem State.writeResult_q (i : Reg) (v : Word) : (s.writeResult i v).q = s.q.set i.val v i.isLt := rfl
@[simp] theorem State.writeResult_ball (i : Reg) (v : Word) : (s.writeResult i v).ball = s.ball := rfl
@[simp] theorem State.writeResult_fb (i : Reg) (v : Word) : (s.writeResult i v).fb = s.fb := rfl
@[simp] theorem State.writeResult_halt (i : Reg) (v : Word) : (s.writeResult i v).halt = s.halt := rfl
@[simp] theorem State.writeResult_cause (i : Reg) (v : Word) : (s.writeResult i v).cause = s.cause := rfl
@[simp] theorem State.writeResult_fcmd (i : Reg) (v : Word) : (s.writeResult i v).fcmd = s.fcmd := rfl
@[simp] theorem State.writeResult_rsp (i : Reg) (v : Word) : (s.writeResult i v).rsp = some { status := .ok, data := v } := rfl
@[simp] theorem State.writeResult_fbRaddr (i : Reg) (v : Word) : (s.writeResult i v).fbRaddr = s.fbRaddr := rfl
@[simp] theorem State.writeResult_cfg (i : Reg) (v : Word) : (s.writeResult i v).cfg = s.cfg := rfl
@[simp] theorem State.writeResult_inputs (i : Reg) (v : Word) : (s.writeResult i v).inputs = s.inputs := rfl
@[simp] theorem State.writeResult_resets (i : Reg) (v : Word) : (s.writeResult i v).resets = s.resets := rfl
@[simp] theorem State.writeResult_sinkReads (i : Reg) (v : Word) : (s.writeResult i v).sinkReads = s.sinkReads := rfl

@[simp] theorem State.raise_q (c : Cause) (w : CmdWord) : (s.raise c w).q = s.q := rfl
@[simp] theorem State.raise_ball (c : Cause) (w : CmdWord) : (s.raise c w).ball = s.ball := rfl
@[simp] theorem State.raise_fb (c : Cause) (w : CmdWord) : (s.raise c w).fb = s.fb := rfl
@[simp] theorem State.raise_halt (c : Cause) (w : CmdWord) : (s.raise c w).halt = true := rfl
@[simp] theorem State.raise_cause (c : Cause) (w : CmdWord) : (s.raise c w).cause = c := rfl
@[simp] theorem State.raise_fcmd (c : Cause) (w : CmdWord) : (s.raise c w).fcmd = w := rfl
@[simp] theorem State.raise_rsp (c : Cause) (w : CmdWord) : (s.raise c w).rsp = some { status := .fault, data := c.data } := rfl
@[simp] theorem State.raise_fbRaddr (c : Cause) (w : CmdWord) : (s.raise c w).fbRaddr = s.fbRaddr := rfl
@[simp] theorem State.raise_cfg (c : Cause) (w : CmdWord) : (s.raise c w).cfg = s.cfg := rfl
@[simp] theorem State.raise_inputs (c : Cause) (w : CmdWord) : (s.raise c w).inputs = s.inputs := rfl
@[simp] theorem State.raise_resets (c : Cause) (w : CmdWord) : (s.raise c w).resets = s.resets := rfl
@[simp] theorem State.raise_sinkReads (c : Cause) (w : CmdWord) : (s.raise c w).sinkReads = s.sinkReads := rfl

@[simp] theorem State.answerHalted_q : (s.answerHalted).q = s.q := rfl
@[simp] theorem State.answerHalted_ball : (s.answerHalted).ball = s.ball := rfl
@[simp] theorem State.answerHalted_fb : (s.answerHalted).fb = s.fb := rfl
@[simp] theorem State.answerHalted_halt : (s.answerHalted).halt = s.halt := rfl
@[simp] theorem State.answerHalted_cause : (s.answerHalted).cause = s.cause := rfl
@[simp] theorem State.answerHalted_fcmd : (s.answerHalted).fcmd = s.fcmd := rfl
@[simp] theorem State.answerHalted_rsp : (s.answerHalted).rsp = some { status := .halted, data := s.cause.data } := rfl
@[simp] theorem State.answerHalted_fbRaddr : (s.answerHalted).fbRaddr = s.fbRaddr := rfl
@[simp] theorem State.answerHalted_cfg : (s.answerHalted).cfg = s.cfg := rfl
@[simp] theorem State.answerHalted_inputs : (s.answerHalted).inputs = s.inputs := rfl
@[simp] theorem State.answerHalted_resets : (s.answerHalted).resets = s.resets := rfl
@[simp] theorem State.answerHalted_sinkReads : (s.answerHalted).sinkReads = s.sinkReads := rfl

@[simp] theorem State.applyReset_q : (s.applyReset).q = State.reset.q := rfl
@[simp] theorem State.applyReset_ball : (s.applyReset).ball = State.reset.ball := rfl
@[simp] theorem State.applyReset_fb : (s.applyReset).fb = { cells := [] } := rfl
@[simp] theorem State.applyReset_halt : (s.applyReset).halt = false := rfl
@[simp] theorem State.applyReset_cause : (s.applyReset).cause = .none := rfl
@[simp] theorem State.applyReset_fcmd : (s.applyReset).fcmd = 0x00000000#32 := rfl
@[simp] theorem State.applyReset_rsp : (s.applyReset).rsp = none := rfl
@[simp] theorem State.applyReset_fbRaddr : (s.applyReset).fbRaddr = s.fbRaddr := rfl
@[simp] theorem State.applyReset_cfg : (s.applyReset).cfg = s.cfg := rfl
@[simp] theorem State.applyReset_inputs : (s.applyReset).inputs = s.inputs := rfl
@[simp] theorem State.applyReset_resets : (s.applyReset).resets = s.resets + 1 := rfl
@[simp] theorem State.applyReset_sinkReads : (s.applyReset).sinkReads = s.sinkReads := rfl

@[simp] theorem State.presentAddress_q (a : BitVec 15) : (s.presentAddress a).q = s.q := rfl
@[simp] theorem State.presentAddress_ball (a : BitVec 15) : (s.presentAddress a).ball = s.ball := rfl
@[simp] theorem State.presentAddress_fb (a : BitVec 15) : (s.presentAddress a).fb = s.fb := rfl
@[simp] theorem State.presentAddress_halt (a : BitVec 15) : (s.presentAddress a).halt = s.halt := rfl
@[simp] theorem State.presentAddress_cause (a : BitVec 15) : (s.presentAddress a).cause = s.cause := rfl
@[simp] theorem State.presentAddress_fcmd (a : BitVec 15) : (s.presentAddress a).fcmd = s.fcmd := rfl
@[simp] theorem State.presentAddress_rsp (a : BitVec 15) : (s.presentAddress a).rsp = s.rsp := rfl
@[simp] theorem State.presentAddress_fbRaddr (a : BitVec 15) : (s.presentAddress a).fbRaddr = a := rfl
@[simp] theorem State.presentAddress_cfg (a : BitVec 15) : (s.presentAddress a).cfg = s.cfg := rfl
@[simp] theorem State.presentAddress_inputs (a : BitVec 15) : (s.presentAddress a).inputs = s.inputs := rfl
@[simp] theorem State.presentAddress_resets (a : BitVec 15) : (s.presentAddress a).resets = s.resets := rfl
@[simp] theorem State.presentAddress_sinkReads (a : BitVec 15) : (s.presentAddress a).sinkReads = s.sinkReads + 1 := rfl

@[simp] theorem State.offerCommand_q (w : CmdWord) : (s.offerCommand w).q = s.q := rfl
@[simp] theorem State.offerCommand_ball (w : CmdWord) : (s.offerCommand w).ball = s.ball := rfl
@[simp] theorem State.offerCommand_fb (w : CmdWord) : (s.offerCommand w).fb = s.fb := rfl
@[simp] theorem State.offerCommand_halt (w : CmdWord) : (s.offerCommand w).halt = s.halt := rfl
@[simp] theorem State.offerCommand_cause (w : CmdWord) : (s.offerCommand w).cause = s.cause := rfl
@[simp] theorem State.offerCommand_fcmd (w : CmdWord) : (s.offerCommand w).fcmd = s.fcmd := rfl
@[simp] theorem State.offerCommand_rsp (w : CmdWord) : (s.offerCommand w).rsp = s.rsp := rfl
@[simp] theorem State.offerCommand_fbRaddr (w : CmdWord) : (s.offerCommand w).fbRaddr = s.fbRaddr := rfl
@[simp] theorem State.offerCommand_cfg (w : CmdWord) : (s.offerCommand w).cfg = s.cfg := rfl
@[simp] theorem State.offerCommand_inputs (w : CmdWord) : (s.offerCommand w).inputs = .command w :: s.inputs := rfl
@[simp] theorem State.offerCommand_resets (w : CmdWord) : (s.offerCommand w).resets = s.resets := rfl
@[simp] theorem State.offerCommand_sinkReads (w : CmdWord) : (s.offerCommand w).sinkReads = s.sinkReads := rfl

@[simp] theorem State.readReg_writeReg (i j : Reg) (v : Word) :
    (s.writeReg i v).readReg j = if i = j then v else s.readReg j := by
  simp [State.readReg, State.writeReg, Vector.get_eq_getElem, Vector.getElem_set, Fin.ext_iff]

@[simp] theorem State.readReg_respond (st : Status) (d : Word) (j : Reg) :
    (s.respond st d).readReg j = s.readReg j := rfl

@[simp] theorem State.readReg_writeResult (i j : Reg) (v : Word) :
    (s.writeResult i v).readReg j = if i = j then v else s.readReg j := by
  simp [State.writeResult]

@[simp] theorem State.readReg_raise (c : Cause) (w : CmdWord) (j : Reg) :
    (s.raise c w).readReg j = s.readReg j := rfl

@[simp] theorem State.readReg_reset (j : Reg) : State.reset.readReg j = 0x0000#16 := by
  simp [State.readReg, State.reset, Vector.get_eq_getElem]

/-- Writing a register with the value it holds changes nothing (the rule of NOP, 30_encoding.md R82). -/
theorem State.writeReg_readReg (i : Reg) : s.writeReg i (s.readReg i) = s := by
  simp [State.readReg, State.writeReg, Vector.get_eq_getElem]

/-- A byte of the frame buffer reads the same after any update that leaves `fb` and `resets`. -/
theorem State.memRead_congr {s t : State} (hfb : t.fb = s.fb) (hr : t.resets = s.resets) (a : Nat) :
    t.memRead a = s.memRead a := by
  simp [State.memRead, hfb, hr]

end Sys2Proof.Machine
end

