-- ==== Sys2Proof/Laws/Memory.lean ====
section
/-! SUPPORT. The laws of the frame buffer: a read after a write, the canonical form kept by every operation, equal
contents are equal data, and what a drawn frame reads (spec/20_memory.md R50 to R56; 42_rasterizer.md R164). -/

namespace Sys2Proof.Machine

theorem cellsRise_mono {lo lo' : Nat} (h : lo' ≤ lo) : ∀ {cs : List Host.Cell}, cellsRise lo cs = true → cellsRise lo' cs = true
  | [], _ => rfl
  | c :: cs, hc => by
    simp only [cellsRise, Bool.and_eq_true, decide_eq_true_eq] at hc ⊢
    exact ⟨⟨by omega, hc.1.2⟩, hc.2⟩

/-- Below the first address nothing is listed. -/
theorem findByte_below {lo a : Nat} (ha : a < lo) : ∀ {cs : List Host.Cell}, cellsRise lo cs = true → findByte cs a = none
  | [], _ => rfl
  | c :: cs, hc => by
    simp only [cellsRise, Bool.and_eq_true, decide_eq_true_eq] at hc
    rw [findByte, if_neg (by omega)]
    exact findByte_below (by omega) hc.2

/-- At or above the end of `FB` nothing is listed. -/
theorem findByte_outside {lo a : Nat} (ha : fbBytes ≤ a) : ∀ {cs : List Host.Cell}, cellsRise lo cs = true → findByte cs a = none
  | [], _ => rfl
  | c :: cs, hc => by
    simp only [cellsRise, Bool.and_eq_true, decide_eq_true_eq] at hc
    rw [findByte, if_neg (by omega)]
    exact findByte_outside ha hc.2

theorem findByte_insertByte (a : Nat) (v : Byte) (b : Nat) :
    ∀ cs : List Host.Cell, findByte (insertByte cs a v) b = if a = b then some v else findByte cs b
  | [] => by simp [insertByte, findByte]
  | c :: cs => by
    unfold insertByte
    split
    · simp [findByte]
    · split
      · simp only [findByte]; split_ifs <;> simp_all
      · simp only [findByte, findByte_insertByte a v b cs]
        split_ifs <;> simp_all

theorem cellsRise_insertByte {a : Nat} {v : Byte} (ha : a < fbBytes) :
    ∀ {lo : Nat} {cs : List Host.Cell}, lo ≤ a → cellsRise lo cs = true → cellsRise lo (insertByte cs a v) = true
  | lo, [], hlo, _ => by simp [insertByte, cellsRise, ha, hlo]
  | lo, c :: cs, hlo, hc => by
    simp only [cellsRise, Bool.and_eq_true, decide_eq_true_eq] at hc
    unfold insertByte
    split
    · simp only [cellsRise, Bool.and_eq_true, decide_eq_true_eq]
      exact ⟨⟨hlo, ha⟩, ⟨by omega, hc.1.2⟩, hc.2⟩
    · split
      · simp only [cellsRise, Bool.and_eq_true, decide_eq_true_eq]
        exact ⟨⟨hlo, ha⟩, by simpa [‹a = c.1›] using hc.2⟩
      · simp only [cellsRise, Bool.and_eq_true, decide_eq_true_eq]
        exact ⟨hc.1, cellsRise_insertByte ha (by omega) hc.2⟩

/-- A write succeeds exactly at an address of `FB`. -/
theorem Memory.write_eq_some {m m' : Memory} {a : Nat} {v : Byte} :
    m.write a v = some m' ↔ a < fbBytes ∧ m' = { cells := insertByte m.cells a v } := by
  unfold Memory.write; split <;> simp_all [eq_comm]

/-- A write gives its address the value and leaves every other address alone. -/
theorem Memory.read_write {m m' : Memory} {a : Nat} {v : Byte} (h : m.write a v = some m') (b : Nat) :
    m'.read b = if a = b then some v else m.read b := by
  obtain ⟨-, rfl⟩ := Memory.write_eq_some.mp h
  exact findByte_insertByte a v b m.cells

/-- A write keeps the canonical form. -/
theorem Memory.wf_write {m m' : Memory} {a : Nat} {v : Byte} (hm : m.wf = true) (h : m.write a v = some m') :
    m'.wf = true := by
  obtain ⟨ha, rfl⟩ := Memory.write_eq_some.mp h
  exact cellsRise_insertByte ha (Nat.zero_le a) hm

/-- Writes one after another keep the canonical form. -/
theorem Memory.wf_writeAll : ∀ {ws : List Host.Cell} {m m' : Memory}, m.wf = true → m.writeAll ws = some m' → m'.wf = true
  | [], m, m', hm, h => by simp only [Memory.writeAll, Option.some.injEq] at h; exact h ▸ hm
  | c :: cs, m, m', hm, h => by
    obtain ⟨m₁, h₁, h₂⟩ := Option.bind_eq_some_iff.mp h
    exact Memory.wf_writeAll (Memory.wf_write hm h₁) h₂

/-- Writes at addresses of `FB` all succeed, and each address holds the last byte written there. -/
theorem Memory.writeAll_total : ∀ (ws : List Host.Cell) (m : Memory), (∀ c ∈ ws, c.1 < fbBytes) →
    ∃ m', m.writeAll ws = some m' ∧
      ∀ a, m'.read a = ws.foldl (fun v c => if c.1 = a then some c.2 else v) (m.read a)
  | [], m, _ => ⟨m, rfl, fun _ => rfl⟩
  | c :: cs, m, h => by
    have hw : m.write c.1 c.2 = some { cells := insertByte m.cells c.1 c.2 } :=
      if_pos (h c (List.mem_cons_self ..))
    obtain ⟨m', h', hr⟩ := Memory.writeAll_total cs _ fun d hd => h d (List.mem_cons_of_mem _ hd)
    refine ⟨m', by rw [Memory.writeAll, hw]; exact h', fun a => ?_⟩
    rw [hr a, Memory.read_write hw a]; rfl

theorem cells_ext {lo : Nat} : ∀ {cs ds : List Host.Cell}, cellsRise lo cs = true → cellsRise lo ds = true →
    (∀ a, findByte cs a = findByte ds a) → cs = ds
  | [], [], _, _, _ => rfl
  | [], d :: ds, _, _, h => by simpa [findByte] using h d.1
  | c :: cs, [], _, _, h => by simpa [findByte] using h c.1
  | c :: cs, d :: ds, hc, hd, h => by
    simp only [cellsRise, Bool.and_eq_true, decide_eq_true_eq] at hc hd
    have key : c.1 = d.1 := by
      rcases Nat.lt_trichotomy c.1 d.1 with hlt | heq | hgt
      · have := h c.1
        rw [findByte, if_pos rfl, findByte, if_neg (by omega), findByte_below (by omega) hd.2] at this
        cases this
      · exact heq
      · have := h d.1
        rw [findByte, if_neg (by omega), findByte_below (by omega) hc.2, findByte, if_pos rfl] at this
        cases this
    have hv : c.2 = d.2 := by simpa [findByte, key] using h c.1
    obtain ⟨a, v⟩ := c
    obtain ⟨b, w⟩ := d
    simp only at key hv
    subst key; subst hv
    congr 1
    refine cells_ext hc.2 hd.2 fun x => ?_
    by_cases hx : a = x
    · rw [findByte_below (by omega) hc.2, findByte_below (by omega) hd.2]
    · have := h x
      rwa [findByte, if_neg hx, findByte, if_neg hx] at this

/-- Two canonical memories that read the same are the same data. -/
theorem Memory.ext_of_read {m n : Memory} (hm : m.wf = true) (hn : n.wf = true) (h : ∀ a, m.read a = n.read a) : m = n := by
  obtain ⟨cs⟩ := m
  obtain ⟨ds⟩ := n
  congr 1
  exact cells_ext hm hn h

theorem findByte_map_range' (f : Nat → Byte) (a : Nat) : ∀ n lo : Nat,
    findByte ((List.range' lo n).map fun i => (i, f i)) a = if lo ≤ a ∧ a < lo + n then some (f a) else none
  | 0, lo => by simp only [List.range'_zero, List.map_nil, findByte]; rw [if_neg (by omega)]
  | n + 1, lo => by
    simp only [List.range'_succ, List.map_cons, findByte, findByte_map_range' f a n (lo + 1)]
    split_ifs <;> first | omega | simp_all

theorem cellsRise_map_range' (f : Nat → Byte) : ∀ n lo : Nat, lo + n ≤ fbBytes →
    cellsRise lo ((List.range' lo n).map fun i => (i, f i)) = true
  | 0, _, _ => rfl
  | n + 1, lo, h => by
    simp only [List.range'_succ, List.map_cons, cellsRise, Bool.and_eq_true, decide_eq_true_eq]
    exact ⟨⟨Nat.le_refl lo, by omega⟩, cellsRise_map_range' f n (lo + 1) (by omega)⟩

/-- A drawn frame lists every address of `FB` with its final byte, and nothing else. -/
theorem frame_read (c : Config) (bi bj : Int) (a : Nat) :
    (frame c bi bj).read a = if a < fbBytes then some (frameByte c bi bj a) else none := by
  unfold Memory.read frame
  simp only [List.range_eq_range', findByte_map_range', Nat.zero_le, true_and, Nat.zero_add]

/-- A drawn frame is in canonical form. -/
theorem frame_wf (c : Config) (bi bj : Int) : (frame c bi bj).wf = true := by
  unfold Memory.wf frame
  simp only [List.range_eq_range']
  exact cellsRise_map_range' _ _ 0 (Nat.le_refl _)

theorem map_fst_pairs (f : Nat → Byte) (l : List Nat) : (l.map fun a => (a, f a)).map Prod.fst = l := by
  rw [List.map_map]; exact List.map_id l

theorem snd_of_mem_pairs (f : Nat → Byte) (l : List Nat) : ∀ c ∈ l.map (fun a => (a, f a)), c.2 = f c.1 := by
  intro c hc
  obtain ⟨a, -, rfl⟩ := List.mem_map.mp hc
  rfl

/-- A drawn frame lists every address of `FB`. -/
theorem frame_keys (c : Config) (bi bj : Int) : (frame c bi bj).cells.map Prod.fst = List.range fbBytes := by
  unfold frame; dsimp only; exact map_fst_pairs _ _

/-- Each byte listed by a drawn frame is the one `frameByte` gives. -/
theorem frame_cell (c : Config) (bi bj : Int) : ∀ p ∈ (frame c bi bj).cells, p.2 = frameByte c bi bj p.1 := by
  unfold frame; dsimp only; exact snd_of_mem_pairs _ _

/-- The memory of the reset state is in canonical form. -/
theorem reset_fb_wf : State.reset.fb.wf = true := rfl

theorem frameByte_cases (c : Config) (bi bj : Int) (a : Nat) :
    frameByte c bi bj a = 0x00#8 ∨ frameByte c bi bj a = 0xFF#8 := by
  unfold frameByte; split <;> simp

end Sys2Proof.Machine
end

