-- ==== Sys2Proof/Laws/PerInstr.lean ====
section
/-! SUPPORT. The statements made one constructor at a time: a command's word fits the row of its opcode
(spec/30_encoding.md R72, R73). -/

namespace Sys2Proof.Laws.EncodeFits

/-- The command's word agrees with its row's `match` under the row's `mask`. -/
def Statement (i : Instr) : Prop := i.op.fits (encode i) = true

theorem regLayout_fits_r3 {o : Op} (hf : o.format = .r3) (rd ra rb : BitVec 4) : o.fits (regLayout o rd ra rb) = true := by
  simp only [Op.fits, beq_iff_eq, hf, Format.mask]
  apply BitVec.eq_of_getLsbD_eq
  intro i hi
  interval_cases i <;> simp [regLayout, Op.pattern]

theorem regLayout_fits_r2 {o : Op} (hf : o.format = .r2) (rd ra : BitVec 4) : o.fits (regLayout o rd ra 0#4) = true := by
  simp only [Op.fits, beq_iff_eq, hf, Format.mask]
  apply BitVec.eq_of_getLsbD_eq
  intro i hi
  interval_cases i <;> simp [regLayout, Op.pattern]

theorem regLayout_fits_d {o : Op} (hf : o.format = .d) (rd : BitVec 4) : o.fits (regLayout o rd 0#4 0#4) = true := by
  simp only [Op.fits, beq_iff_eq, hf, Format.mask]
  apply BitVec.eq_of_getLsbD_eq
  intro i hi
  interval_cases i <;> simp [regLayout, Op.pattern]

theorem regLayout_fits_a {o : Op} (hf : o.format = .a) (ra : BitVec 4) : o.fits (regLayout o 0#4 ra 0#4) = true := by
  simp only [Op.fits, beq_iff_eq, hf, Format.mask]
  apply BitVec.eq_of_getLsbD_eq
  intro i hi
  interval_cases i <;> simp [regLayout, Op.pattern]

theorem regLayout_fits_ab {o : Op} (hf : o.format = .ab) (ra rb : BitVec 4) : o.fits (regLayout o 0#4 ra rb) = true := by
  simp only [Op.fits, beq_iff_eq, hf, Format.mask]
  apply BitVec.eq_of_getLsbD_eq
  intro i hi
  interval_cases i <;> simp [regLayout, Op.pattern]

theorem regLayout_fits_z {o : Op} (hf : o.format = .z) : o.fits (regLayout o 0#4 0#4 0#4) = true := by
  simp only [Op.fits, beq_iff_eq, hf, Format.mask]
  apply BitVec.eq_of_getLsbD_eq
  intro i hi
  interval_cases i <;> simp [regLayout, Op.pattern]

theorem immLayout_fits_i16 {o : Op} (hf : o.format = .i16) (rd : BitVec 4) (imm : Word) :
    o.fits (immLayout o rd imm) = true := by
  simp only [Op.fits, beq_iff_eq, hf, Format.mask]
  apply BitVec.eq_of_getLsbD_eq
  intro i hi
  interval_cases i <;> simp [immLayout, Op.pattern]

theorem immLayout_fits_i8 {o : Op} (hf : o.format = .i8) (rd : BitVec 4) (imm : BitVec 8) :
    o.fits (immLayout o rd (imm.setWidth 16)) = true := by
  simp only [Op.fits, beq_iff_eq, hf, Format.mask]
  apply BitVec.eq_of_getLsbD_eq
  intro i hi
  interval_cases i <;> simp [immLayout, Op.pattern]

theorem immLayout_fits_sel {o : Op} (hf : o.format = .sel) (rd : BitVec 4) (sel : BitVec 2) :
    o.fits (immLayout o rd (sel.setWidth 16)) = true := by
  simp only [Op.fits, beq_iff_eq, hf, Format.mask]
  apply BitVec.eq_of_getLsbD_eq
  intro i hi
  interval_cases i <;> simp [immLayout, Op.pattern]

theorem fraw (rd : Reg) (imm16 : Word) : Statement (.fraw rd imm16) := immLayout_fits_i16 (o := .fraw) rfl _ _
theorem fint (rd : Reg) (n : Int) : Statement (.fint rd n) := immLayout_fits_i8 (o := .fint) rfl _ _
theorem fzero (rd : Reg) : Statement (.fzero rd) := regLayout_fits_d (o := .fzero) rfl _
theorem fone (rd : Reg) : Statement (.fone rd) := regLayout_fits_d (o := .fone) rfl _
theorem fmov (rd ra : Reg) : Statement (.fmov rd ra) := regLayout_fits_r2 (o := .fmov) rfl _ _
theorem fadd (rd ra rb : Reg) : Statement (.fadd rd ra rb) := regLayout_fits_r3 (o := .fadd) rfl _ _ _
theorem fsub (rd ra rb : Reg) : Statement (.fsub rd ra rb) := regLayout_fits_r3 (o := .fsub) rfl _ _ _
theorem fneg (rd ra : Reg) : Statement (.fneg rd ra) := regLayout_fits_r2 (o := .fneg) rfl _ _
theorem fmul (rd ra rb : Reg) : Statement (.fmul rd ra rb) := regLayout_fits_r3 (o := .fmul) rfl _ _ _
theorem fdiv (rd ra rb : Reg) : Statement (.fdiv rd ra rb) := regLayout_fits_r3 (o := .fdiv) rfl _ _ _
theorem ftrunc (ra : Reg) : Statement (.ftrunc ra) := regLayout_fits_a (o := .ftrunc) rfl _
theorem fisint (ra : Reg) : Statement (.fisint ra) := regLayout_fits_a (o := .fisint) rfl _
theorem fcmp (ra rb : Reg) : Statement (.fcmp ra rb) := regLayout_fits_ab (o := .fcmp) rfl _ _
theorem fget (ra : Reg) : Statement (.fget ra) := regLayout_fits_a (o := .fget) rfl _
theorem bget (rd : Reg) (sel : BallReg) : Statement (.bget rd sel) := immLayout_fits_sel (o := .bget) rfl _ _
theorem advance : Statement .advance := regLayout_fits_z (o := .advance) rfl
theorem draw : Statement .draw := regLayout_fits_z (o := .draw) rfl

end Sys2Proof.Laws.EncodeFits
end

