-- ==== Sys2Proof/Laws/Rasterizer.lean ====
section
/-! SUPPORT. The rasterizer's tests said as propositions (spec/42_rasterizer.md R160 to R162), with a well-formed
configuration. -/

namespace Sys2Proof.Machine

/-- On display pixels the ring is the border. -/
theorem inRing_iff_onBorder {c : Config} (h : c.wf = true) (x y : Nat) : inRing c x y = true ↔ OnBorder c x y := by
  simp only [Config.wf, Bool.and_eq_true, decide_eq_true_eq] at h
  simp only [inRing, Bool.and_eq_true, Bool.or_eq_true, decide_eq_true_eq]
  simp only [borderLeft, borderRight, borderTop, borderBottom, OnBorder]
  constructor <;> intro h' <;> omega

theorem isBallPixel_iff_onBall (c : Config) (b : Ball) (x y : Nat) :
    isBallPixel c (fxFloor b.position.x) (fxFloor b.position.y) x y = true ↔ OnBall c b x y := by
  simp only [isBallPixel, Bool.and_eq_true, decide_eq_true_eq]
  rfl

/-- DRAW's test of the position is `FloorInPlayfield`. -/
theorem inPlayfield_iff (c : Config) (b : Ball) :
    inPlayfield c (fxFloor b.position.x) (fxFloor b.position.y) = true ↔ FloorInPlayfield c b := by
  simp only [inPlayfield, Bool.and_eq_true, decide_eq_true_eq, and_assoc]
  rfl

end Sys2Proof.Machine
end

