-- ==== Sys2Proof/Laws/Step.lean ====
section
/-! SUPPORT. Everything a command's rule, an accepted word and a step can do, said once
(spec/30_encoding.md R84; 60_exceptions.md R185, R186). -/

namespace Sys2Proof.Machine

open Host (Outcome)

variable {i : Instr} {w : CmdWord} {e : Input} {s t : State}

/-- Everything a command's rule can do: write its destination with a result, answer a result, tick the ball, draw the
frame, or enter DIVZERO or RANGE. -/
theorem exec_next_cases (h : exec i s = .next t) :
    (∃ rd v, destReg i = some rd ∧ t = s.writeResult rd v) ∨
      (∃ d, destReg i = none ∧ i ≠ .advance ∧ i ≠ .draw ∧ t = s.respond .ok d) ∨
        (i = .advance ∧ t = { s with ball := s.ball.tick s.cfg }.respond .ok 0x0000#16) ∨
          (i = .draw ∧ inPlayfield s.cfg (fxFloor s.ball.position.x) (fxFloor s.ball.position.y) = true ∧
            t = { s with fb := frame s.cfg (fxFloor s.ball.position.x) (fxFloor s.ball.position.y) }.respond .ok 0x0000#16) ∨
            (∃ rd ra rb, i = .fdiv rd ra rb ∧ s.readReg rb = 0x0000#16 ∧ t = s.raise .divzero (encode i)) ∨
              (i = .draw ∧ inPlayfield s.cfg (fxFloor s.ball.position.x) (fxFloor s.ball.position.y) = false ∧
                t = s.raise .range (encode i)) := by
  cases i
  case fdiv rd ra rb =>
    simp only [exec, execFdiv] at h
    split at h
    · rename_i hd
      refine Or.inr (Or.inr (Or.inr (Or.inr (Or.inl ⟨rd, ra, rb, rfl, ?_, by injection h with h; exact h.symm⟩))))
      by_contra hne
      rw [fxDiv_of_ne_zero _ hne] at hd; cases hd
    · injection h with h
      exact Or.inl ⟨rd, _, rfl, h.symm⟩
  case advance =>
    simp only [exec, execAdvance] at h
    injection h with h
    exact Or.inr (Or.inr (Or.inl ⟨rfl, h.symm⟩))
  case draw =>
    simp only [exec, execDraw] at h
    split at h
    · rename_i hp
      injection h with h
      exact Or.inr (Or.inr (Or.inr (Or.inl ⟨rfl, hp, h.symm⟩)))
    · rename_i hp
      injection h with h
      exact Or.inr (Or.inr (Or.inr (Or.inr (Or.inr ⟨rfl, by simpa using hp, h.symm⟩))))
  all_goals
    injection h with h
    first
      | exact Or.inl ⟨_, _, rfl, h.symm⟩
      | exact Or.inr (Or.inl ⟨_, rfl, by nofun, by nofun, h.symm⟩)

/-- A command's rule always ends in a next state. -/
theorem exec_total (i : Instr) (s : State) : ∃ t, exec i s = .next t := by
  cases i
  case fdiv rd ra rb =>
    simp only [exec, execFdiv]
    split <;> exact ⟨_, rfl⟩
  case draw =>
    simp only [exec, execDraw]
    split <;> exact ⟨_, rfl⟩
  all_goals exact ⟨_, rfl⟩

/-- Everything an accepted word can do (R84). -/
theorem acceptCommand_next_cases (h : acceptCommand w s = .next t) :
    (s.halt = true ∧ t = s.answerHalted) ∨
      (s.halt = false ∧ (∃ err, decode w = .error err) ∧ t = s.raise .illegal w) ∨
        (s.halt = false ∧ ∃ i, decode w = .ok i ∧ exec i s = .next t) := by
  unfold acceptCommand at h
  split at h
  · rename_i hh
    injection h with h
    exact Or.inl ⟨hh, h.symm⟩
  · rename_i hh
    have hh : s.halt = false := by simpa using hh
    split at h
    · rename_i err he
      injection h with h
      exact Or.inr (Or.inl ⟨hh, ⟨err, he⟩, h.symm⟩)
    · rename_i i hi
      exact Or.inr (Or.inr ⟨hh, i, hi, h⟩)

/-- Everything an input can do. -/
theorem perform_next_cases (h : perform e s = .next t) :
    (∃ w, e = .command w ∧ acceptCommand w s = .next t) ∨ (e = .reset ∧ t = s.applyReset) ∨
      (∃ a, e = .sinkRead a ∧ t = s.presentAddress a) := by
  cases e with
  | command w => exact Or.inl ⟨w, rfl, h⟩
  | reset => injection h with h; exact Or.inr (Or.inl ⟨rfl, h.symm⟩)
  | sinkRead a => injection h with h; exact Or.inr (Or.inr ⟨a, rfl, h.symm⟩)

/-- Everything a step can do when it answers a next state: stay idle, or perform the first input. -/
theorem step_next_cases (h : step s = .next t) :
    s.cfg.wf = true ∧
      ((s.inputs = [] ∧ t = s) ∨ ∃ e rest, s.inputs = e :: rest ∧ perform e { s with inputs := rest } = .next t) := by
  unfold step at h
  split at h
  · rename_i hw
    refine ⟨hw, ?_⟩
    unfold State.takeInput at h
    cases hi : s.inputs with
    | nil => rw [hi] at h; injection h with h; exact Or.inl ⟨rfl, h.symm⟩
    | cons e rest => rw [hi] at h; exact Or.inr ⟨e, rest, rfl, h⟩
  · cases h

/-- A step on a command word is `acceptCommand` of it. -/
theorem step_of_command {rest : List Input} (hw : s.cfg.wf = true) (hi : s.inputs = .command w :: rest) :
    step s = acceptCommand w { s with inputs := rest } := by
  simp [step, State.takeInput, hw, hi, perform]

/-- A run that ends in a next state is a first step and the rest of the run. -/
theorem core_run_succ {n : Nat} (h : Host.Core.run Sys2Proof.core (n + 1) s = .next t) :
    ∃ u, step s = .next u ∧ Host.Core.run Sys2Proof.core n u = .next t := by
  simp only [Host.Core.run] at h
  cases hs : Sys2Proof.core.step s with
  | next u => rw [hs] at h; exact ⟨u, hs, h⟩
  | fault r => rw [hs] at h; cases h
  | refused r => rw [hs] at h; cases h

end Sys2Proof.Machine
end

