-- ==== Sys2Proof/Tests/Slice0.lean ====
section
/-! SUPPORT. The model's own tests: ill-formed terms refused, words of the spec decoded, one step of each command on the
spec's vectors (spec/95_test_vectors.md, named by its sections), and for each statement with hypotheses a concrete case
that meets them. -/

namespace Sys2Proof.Tests

open Sys2Proof Sys2Proof.Machine

/-! ### Helpers -/

/-- The reset state with some registers set. -/
def withRegs (l : List (Reg × Word)) : State := l.foldl (fun s p => s.writeReg p.1 p.2) State.reset

/-- The reset state with another ball. -/
def withBall (px py vx vy : Word) : State :=
  { State.reset with ball := { position := { x := px, y := py }, velocity := { x := vx, y := vy } } }

/-- The next state meets a test. -/
def shows (o : Host.Outcome State Fault Refusal) (f : State → Bool) : Bool :=
  match o with
  | .next t => f t
  | .fault _ => false
  | .refused _ => false

/-- One step on a command word. -/
def send (s : State) (w : CmdWord) : Host.Outcome State Fault Refusal := step (s.withFetchWord 32 w.toNat)

/-- The response is OK with a datum. -/
def okWith (t : State) (d : Word) : Bool := t.rsp == some { status := .ok, data := d }

/-- A word sent writes one value to a register and answers it; the block goes on. -/
def writes (s : State) (w : CmdWord) (rd : Reg) (v : Word) : Bool :=
  shows (send s w) fun t => t.q == s.q.set rd.val v rd.isLt && okWith t v && !t.halt

/-- A word sent answers a datum and writes no register. -/
def answers (s : State) (w : CmdWord) (d : Word) : Bool :=
  shows (send s w) fun t => t.q == s.q && okWith t d && !t.halt

/-- A word sent enters a fault: the record, the response, and no register or ball register written. -/
def faults (s : State) (w : CmdWord) (c : Cause) (d : Word) : Bool :=
  shows (send s w) fun t =>
    t.halt && t.cause == c && t.fcmd == w && t.rsp == some { status := .fault, data := d } && t.q == s.q && t.ball == s.ball

/-- ADVANCE sent leaves this ball and answers zero. -/
def ticksTo (s : State) (px py vx vy : Word) : Bool :=
  shows (send s 0x21000000#32) fun t => t.ball == (withBall px py vx vy).ball && okWith t 0x0000#16

/-! ### Ill-formed terms are refused -/

theorem test_wf_refuses_fint_129_below : (Instr.fint 0 (-129)).wf = false := by decide
theorem test_wf_refuses_fint_128 : (Instr.fint 0 128).wf = false := by decide
theorem test_wf_refuses_zero_width : ({ pfW := 0, pfH := 64, pfLeft := 8, pfTop := 24 } : Config).wf = false := by decide
theorem test_wf_refuses_zero_height : ({ pfW := 80, pfH := 0, pfLeft := 8, pfTop := 24 } : Config).wf = false := by decide
theorem test_wf_refuses_zero_left : ({ pfW := 80, pfH := 64, pfLeft := 0, pfTop := 24 } : Config).wf = false := by decide
theorem test_wf_refuses_zero_top : ({ pfW := 80, pfH := 64, pfLeft := 8, pfTop := 0 } : Config).wf = false := by decide
theorem test_wf_refuses_wide_right : ({ pfW := 80, pfH := 64, pfLeft := 16, pfTop := 24 } : Config).wf = false := by decide
theorem test_wf_refuses_tall_bottom : ({ pfW := 80, pfH := 64, pfLeft := 8, pfTop := 32 } : Config).wf = false := by decide
theorem test_memory_wf_refuses_repeats : (Memory.mk [(3, 0x00#8), (3, 0xFF#8)]).wf = false := by decide
theorem test_memory_wf_refuses_outside : (Memory.mk [(18432, 0x00#8)]).wf = false := by decide

/-! ### Words of the spec: the assembler table R81, sections 2.1 and 2.9 -/

theorem test_decode_constructions : decode 0x01F0FFFF#32 = .ok (.fraw 15 0xFFFF#16) ∧ decode 0x0220007F#32 = .ok (.fint 2 127) ∧
    decode 0x02200080#32 = .ok (.fint 2 (-128)) ∧ decode 0x03700000#32 = .ok (.fzero 7) ∧ decode 0x04700000#32 = .ok (.fone 7) ∧
    decode 0x05210000#32 = .ok (.fmov 2 1) := by decide
theorem test_decode_arithmetic : decode 0x10312000#32 = .ok (.fadd 3 1 2) ∧ decode 0x11736000#32 = .ok (.fsub 7 3 6) ∧
    decode 0x12210000#32 = .ok (.fneg 2 1) ∧ decode 0x13534000#32 = .ok (.fmul 5 3 4) ∧
    decode 0x14412000#32 = .ok (.fdiv 4 1 2) := by decide
theorem test_decode_answers : decode 0x18030000#32 = .ok (.ftrunc 3) ∧ decode 0x19060000#32 = .ok (.fisint 6) ∧
    decode 0x1A056000#32 = .ok (.fcmp 5 6) ∧ decode 0x1B090000#32 = .ok (.fget 9) := by decide
theorem test_decode_ball : decode 0x20000000#32 = .ok (.bget 0 .px) ∧ decode 0x20100001#32 = .ok (.bget 1 .py) ∧
    decode 0x20500002#32 = .ok (.bget 5 .vx) ∧ decode 0x20600003#32 = .ok (.bget 6 .vy) ∧
    decode 0x21000000#32 = .ok .advance ∧ decode 0x22000000#32 = .ok .draw := by decide
theorem test_decode_extremes : decode 0x10FFF000#32 = .ok (.fadd 15 15 15) ∧ decode 0x05000000#32 = .ok .nop := by decide
theorem test_encode_words : encode (.fint 2 (-4)) = 0x022000FC#32 ∧ encode (.fdiv 3 2 1) = 0x14321000#32 ∧
    encode (.bget 6 .vy) = 0x20600003#32 ∧ encode .draw = 0x22000000#32 := by decide
theorem test_decode_refuses_unassigned : decode 0x00000000#32 = .error .unassignedOpcode ∧
    decode 0xFFFFFFFF#32 = .error .unassignedOpcode ∧ decode 0x06000000#32 = .error .unassignedOpcode ∧
    decode 0x15000000#32 = .error .unassignedOpcode ∧ decode 0x23000000#32 = .error .unassignedOpcode := by decide
theorem test_decode_refuses_must_be_zero : decode 0x10312001#32 = .error .mustBeZero ∧ decode 0x12211000#32 = .error .mustBeZero ∧
    decode 0x03710000#32 = .error .mustBeZero ∧ decode 0x18130000#32 = .error .mustBeZero ∧
    decode 0x1A112000#32 = .error .mustBeZero ∧ decode 0x21000001#32 = .error .mustBeZero ∧
    decode 0x20000004#32 = .error .mustBeZero ∧ decode 0x02200104#32 = .error .mustBeZero := by decide
theorem test_table_word : decodeTableWord 32 0x10312000 = some (.fadd 3 1 2) ∧ decodeTableWord 32 0 = none := by decide

/-! ### One step of each command (sections 2.1 to 2.8, 3.1, 4) -/

theorem test_fraw : writes State.reset 0x01008000#32 0 0x8000#16 = true := by decide
theorem test_fint : writes State.reset 0x022000FC#32 2 0xFC00#16 = true := by decide
theorem test_fint_least : writes State.reset 0x02200080#32 2 0x8000#16 = true := by decide
theorem test_fzero : writes (withRegs [(7, 0x1234#16)]) 0x03700000#32 7 0x0000#16 = true := by decide
theorem test_fone : writes State.reset 0x04700000#32 7 0x0100#16 = true := by decide
theorem test_fmov : writes (withRegs [(1, 0x1234#16)]) 0x05210000#32 2 0x1234#16 = true := by decide
theorem test_fmov_nop : answers (withRegs [(0, 0x1234#16)]) 0x05000000#32 0x1234#16 = true := by decide
theorem test_fadd : writes (withRegs [(1, 0xFC00#16), (2, 0x0300#16)]) 0x10312000#32 3 0xFF00#16 = true := by decide
theorem test_fadd_wraps : writes (withRegs [(1, 0x7FFF#16), (2, 0x0001#16)]) 0x10312000#32 3 0x8000#16 = true := by decide
theorem test_fsub : writes (withRegs [(1, 0x0300#16), (2, 0x0700#16)]) 0x11312000#32 3 0xFC00#16 = true := by decide
theorem test_fsub_wraps : writes (withRegs [(1, 0x7F00#16), (2, 0x8000#16)]) 0x11312000#32 3 0xFF00#16 = true := by decide
theorem test_fneg : writes (withRegs [(1, 0x02D8#16)]) 0x12210000#32 2 0xFD28#16 = true := by decide
theorem test_fneg_least : writes (withRegs [(1, 0x8000#16)]) 0x12210000#32 2 0x8000#16 = true := by decide
theorem test_fmul_rounds_down : writes (withRegs [(1, 0xFFFF#16), (2, 0x0001#16)]) 0x13312000#32 3 0xFFFF#16 = true := by decide
theorem test_fmul_wraps : writes (withRegs [(4, 0x7FFF#16)]) 0x13544000#32 5 0xFF00#16 = true := by decide
theorem test_fdiv_toward_zero : writes (withRegs [(1, 0xFF00#16), (2, 0x0300#16)]) 0x14412000#32 4 0xFFAB#16 = true := by decide
theorem test_fdiv_zero : faults (withRegs [(2, 0x0500#16), (3, 0x1111#16)]) 0x14321000#32 .divzero 0x0002#16 = true := by decide
theorem test_ftrunc : answers (withRegs [(3, 0xFE80#16)]) 0x18030000#32 0xFFFE#16 = true := by decide
theorem test_ftrunc_greatest : answers (withRegs [(3, 0x7FFF#16)]) 0x18030000#32 0x007F#16 = true := by decide
theorem test_fisint : answers (withRegs [(3, 0xFF00#16)]) 0x19030000#32 0x0001#16 = true := by decide
theorem test_fisint_not : answers (withRegs [(3, 0x01FF#16)]) 0x19030000#32 0x0000#16 = true := by decide
theorem test_fcmp_signed : answers (withRegs [(1, 0x8000#16), (2, 0x7FFF#16)]) 0x1A012000#32 0xFFFF#16 = true := by decide
theorem test_fcmp_greater : answers (withRegs [(1, 0x0001#16), (2, 0xFFFF#16)]) 0x1A012000#32 0x0001#16 = true := by decide
theorem test_fget : answers (withRegs [(3, 0xBEEF#16)]) 0x1B030000#32 0xBEEF#16 = true := by decide
theorem test_bget_position : writes (withBall 0x0888#16 0x0999#16 0x02D8#16 0xFD28#16) 0x20100001#32 1 0x0999#16 = true := by decide
theorem test_bget_velocity : writes (withBall 0x0888#16 0x0999#16 0x02D8#16 0xFD28#16) 0x20500002#32 5 0x02D8#16 = true := by decide
theorem test_advance_right_edge : ticksTo (withBall 0x4E00#16 0x1000#16 0x02D8#16 0x02D8#16) 0x4F00#16 0x12D8#16 0xFD28#16 0x02D8#16 = true := by
  decide
theorem test_advance_wraps : ticksTo (withBall 0x4F00#16 0x2000#16 0x7FFF#16 0x8000#16) 0x0000#16 0x0000#16 0x8001#16 0x8000#16 = true := by
  decide
/-- Section 4.1: a corner of the ring, the pixel outside it, the ball, the pixel beside it, the first byte. -/
theorem test_draw : shows (send State.reset 0x22000000#32) (fun t =>
    t.memRead 4430 == some 0xFF#8 && t.memRead 4429 == some 0x00#8 && t.memRead 4625 == some 0xFF#8 &&
      t.memRead 4626 == some 0x00#8 && t.memRead 0 == some 0x00#8 && okWith t 0x0000#16) = true := by decide +kernel
theorem test_draw_range : faults (withBall 0x5000#16 0x0000#16 0x02D8#16 0x02D8#16) 0x22000000#32 .range 0x0003#16 = true := by decide

/-! ### Illegal words, the halted state, reset, the sink -/

theorem test_illegal : faults State.reset 0x00000000#32 .illegal 0x0001#16 = true := by decide
/-- Program P3, steps 4 and 5: no tick, and no decoding of an illegal word. -/
theorem test_halted : shows (send { State.reset with halt := true, cause := .divzero, fcmd := 0x14321000#32 } 0x00000000#32) (fun t =>
    t.rsp == some { status := .halted, data := 0x0002#16 } && t.cause == .divzero && t.fcmd == 0x14321000#32 && t.halt) = true := by decide
theorem test_reset_leaves_halt : shows (step { withBall 0x4F00#16 0#16 0xFD28#16 0x02D8#16 with
    halt := true, cause := .range, inputs := [.reset] }) (fun t =>
    !t.halt && t.cause == .none && t.ball == State.reset.ball && t.rsp == none) = true := by decide
theorem test_response_word : (Response.mk .halted 0x0002#16).word = 0x20002#18 := by decide
theorem test_ill_formed_config_refused :
    step { State.reset with cfg := { pfW := 95, pfH := 64, pfLeft := 1, pfTop := 24 } } = .refused .illFormedConfig := rfl
theorem test_write_listed_byte : (Memory.mk [(0, 0x01#8), (18431, 0x02#8)]).write 18431 0x03#8 = some ⟨[(0, 0x01#8), (18431, 0x03#8)]⟩ := by
  decide

/-! ### Each statement's hypotheses are met -/

/-- A block halted by DIVZERO (program P3). -/
def haltedState : State :=
  { withRegs [(2, 0x0500#16)] with
    halt := true, cause := .divzero, fcmd := 0x14321000#32, rsp := some { status := .fault, data := 0x0002#16 } }

/-- The state with the next inputs. -/
def offered (s : State) (l : List Input) : State := { s with inputs := l }

theorem witness_EncodedCommandDecodesToItself : (Instr.fint 0 (-128)).wf = true ∧ (Instr.fint 15 127).wf = true ∧
    (Instr.fraw 15 0xFFFF#16).wf = true := by decide
theorem witness_DecodedWordIsTheCommandsOnlyWord : decode 0x10312000#32 = .ok (.fadd 3 1 2) := by decide
theorem witness_CommandsAreTheWordsOfOneRow : (0x10312000#32, 0xFF000FFF#32) ∉ opcodeRows ∧ (0x10000000#32, 0xFF000FFF#32) ∈ opcodeRows ∧
    (0x10312000#32 : CmdWord) &&& 0xFF000FFF#32 = 0x10000000#32 := by decide
theorem witness_UnlistedWordRaisesIllegal_unlisted : opcodeRows.all (fun r => (0x06000000#32 : CmdWord).extractLsb' 24 8 != r.1.extractLsb' 24 8) = true ∧
    (offered State.reset [.command 0x06000000#32]).cfg.wf = true ∧ State.reset.halt = false := by decide
theorem witness_UnlistedWordRaisesIllegal_mustBeZero : opcodeRows.any (fun r => (0x21000001#32 : CmdWord).extractLsb' 24 8 == r.1.extractLsb' 24 8 &&
    (0x21000001#32 : CmdWord) &&& r.2 &&& 0x00FFFFFF#32 != 0#32) = true := by decide
theorem witness_UnlistedWordRaisesIllegal_listed : opcodeRows.any (fun r => (0x20000003#32 : CmdWord).extractLsb' 24 8 == r.1.extractLsb' 24 8 &&
    (0x20000003#32 : CmdWord) &&& r.2 &&& 0x00FFFFFF#32 == 0#32) = true ∧ decode 0x20000003#32 = .ok (.bget 0 .vy) := by decide
theorem witness_EveryAcceptedCommandHasItsResponse :
    shows (step (offered haltedState [.command 0x04700000#32])) (fun t => (t.rsp.map (·.status)) == some .halted) = true ∧
    shows (step (offered State.reset [.command 0x14321000#32])) (fun t => (t.rsp.map (·.status)) == some .fault) = true ∧
    shows (step (offered State.reset [.command 0x04700000#32])) (fun t => (t.rsp.map (·.status)) == some .ok) = true := by decide
/-- A word for each row of R80's table that writes no register, each answered OK. -/
theorem witness_EveryAcceptedCommandHasItsResponse_rows :
    [0x18030000#32, 0x19060000#32, 0x1A056000#32, 0x1B090000#32, 0x21000000#32, 0x22000000#32].all (fun w =>
      shows (step (offered State.reset [.command w])) (fun t => (t.rsp.map (·.status)) == some .ok)) = true := by decide
theorem witness_StepRunsTheAcceptedWord : State.reset.cfg.wf = true ∧ haltedState.halt = true ∧ State.reset.halt = false ∧
    decode 0x03710000#32 = .error .mustBeZero ∧ decode 0x03700000#32 = .ok (.fzero 7) ∧
    decode (BitVec.ofNat 32 0x03700000) = .ok (.fzero 7) := by decide
theorem witness_IdleBlockStaysAsItIs : State.reset.cfg.wf = true ∧ State.reset.inputs = [] := by decide
theorem witness_IllFormedConfigurationIsRefused : ({ pfW := 94, pfH := 94, pfLeft := 1, pfTop := 1 } : Config).wf = true ∧
    ({ pfW := 1, pfH := 1, pfLeft := 94, pfTop := 94 } : Config).wf = true ∧
    ({ pfW := 94, pfH := 94, pfLeft := 2, pfTop := 1 } : Config).wf = false := by decide
theorem witness_EveryStepAnswers : State.reset.cfg.wf = true ∧ haltedState.cfg.wf = true := by decide
theorem witness_FintWritesTheScaledInteger : (-128 : Int) ≤ -128 ∧ (-128 : Int) ≤ 127 ∧ (-128 : Int) ≤ 127 ∧ (127 : Int) ≤ 127 := by decide
theorem witness_FnegNegates : (withRegs [(1, 0x8000#16), (2, 0x8001#16)]).q[1] = 0x8000#16 ∧
    (withRegs [(1, 0x8000#16), (2, 0x8001#16)]).q[2] ≠ 0x8000#16 := by decide
theorem witness_FdivDividesOrRaisesDivzero : (withRegs [(1, 0x0001#16)]).q[1] ≠ 0x0000#16 ∧ (withRegs [(1, 0x0001#16)]).q[2] = 0x0000#16 := by
  decide
theorem witness_SourcesAreReadBeforeTheDestination : (withRegs [(1, 0x8000#16)]).q[1] ≠ 0x0000#16 ∧ State.reset.q[1] = 0x0000#16 := by
  decide
theorem witness_IntegerArithmeticIsPreserved : (-128 : Int) ≤ 127 + 0 ∧ (127 : Int) + 0 ≤ 127 ∧ (-128 : Int) ≤ -128 - 0 ∧ (-128 : Int) - 0 ≤ 127 ∧
    (-128 : Int) ≤ -128 * 1 ∧ (-128 : Int) * 1 ≤ 127 := by decide
theorem witness_DivisionKeepsTheFraction : (-128 : Int) ≤ -128 ∧ (-128 : Int) ≤ 127 ∧ (127 : Int) ≤ 127 := by decide
theorem witness_AdvanceMovesEachAxisByTheAxisRule : State.reset.cfg.wf = true ∧
    ((0x0000#16 : Word).toInt + (0xFFFF#16 : Word).toInt).bmod 65536 = -1 ∧
    ((0x0001#16 : Word).toInt + (0xFFFF#16 : Word).toInt).bmod 65536 = 0 ∧
    ((0x4EFF#16 : Word).toInt + (0x0100#16 : Word).toInt).bmod 65536 = 80 * 256 - 1 ∧
    ((0x4F00#16 : Word).toInt + (0x0100#16 : Word).toInt).bmod 65536 = 80 * 256 := by decide
/-- A corner bounce of section 3.1, and the two fixed components of a flip. -/
theorem witness_VelocityChangesBySignFlipsOnly :
    shows (exec .advance (withBall 0x4F00#16 0x3F00#16 0x02D8#16 0x02D8#16))
      (fun t => t.ball.velocity == (Vec2.mk 0x02D8#16 0x02D8#16).flipX.flipY && t.ball.velocity != Vec2.mk 0x02D8#16 0x02D8#16) = true ∧
    (Vec2.mk 0x8000#16 0x0000#16).flipX.flipY = Vec2.mk 0x8000#16 0x0000#16 := by decide
theorem witness_TickEndsInThePlayfield : ∃ t, exec .advance (withBall 0x8000#16 0x7FFF#16 0x8000#16 0x7FFF#16) = .next t := ⟨_, rfl⟩
theorem witness_RightEdgeReflects : (∃ t, exec .advance (withBall 0x4E00#16 0x1000#16 0x02D8#16 0x02D8#16) = .next t) ∧
    0 < (0x02D8#16 : Word).toInt ∧ (80 : Int) * 256 ≤ (0x4E00#16 : Word).toInt + (0x02D8#16 : Word).toInt ∧
    (0x4E00#16 : Word).toInt + (0x02D8#16 : Word).toInt ≤ 32767 ∧ 0 ≤ (0x1000#16 : Word).toInt + (0x02D8#16 : Word).toInt ∧
    (0x1000#16 : Word).toInt + (0x02D8#16 : Word).toInt < 64 * 256 := ⟨⟨_, rfl⟩, by decide⟩
theorem witness_OnlyAdvanceAndResetChangeTheBall :
    shows (step (offered State.reset [.command 0x21000000#32])) (fun t => t.ball != State.reset.ball) = true ∧
    shows (step (offered (withBall 0x4F00#16 0#16 0xFD28#16 0x02D8#16) [.reset])) (fun t => t.ball == State.reset.ball) = true := by decide
theorem witness_BallDependsOnTheNumberOfTicksOnly : ([.command 0x21000000#32, .command 0x04700000#32, .sinkRead 0#15] : List Input).all (fun e => !e.isReset) = true ∧
    shows (Host.Core.run Sys2Proof.core 3 (offered State.reset [.command 0x21000000#32, .command 0x04700000#32, .sinkRead 0#15])) (fun t => !t.halt) = true := by
  decide
/-- Reset meets the invariant's every clause. -/
theorem witness_reset_inv : State.reset.Inv := by
  refine ⟨by decide, ?_, ⟨Or.inl rfl, Or.inl rfl⟩, ⟨by decide, fun _ => rfl⟩, by decide, rfl, Or.inl rfl, nofun⟩
  unfold State.BallInPlayfield; decide
/-- So does a halted state, with every clause about faults in use. -/
theorem witness_halted_inv : haltedState.Inv := by
  refine ⟨by decide, ?_, ⟨Or.inl rfl, Or.inl rfl⟩, ⟨by decide, by decide⟩, by decide, rfl, Or.inl rfl, fun _ => Or.inl rfl⟩
  unfold State.BallInPlayfield; decide
theorem witness_TickSumsDoNotWrapFromReset : State.reset.Inv := witness_reset_inv
theorem witness_DrawWritesTheWholeFrame : State.reset.cfg.wf = true ∧ FloorInPlayfield Config.ref State.reset.ball ∧
    FloorInPlayfield Config.ref (withBall 0x4FFF#16 0x3FFF#16 0#16 0#16).ball := by decide
theorem witness_FrameHoldsItsNumberOfWhiteBytes : ∃ t, exec .draw State.reset = .next t := ⟨_, rfl⟩
theorem witness_DrawOutsideThePlayfieldRaisesRange : ¬FloorInPlayfield Config.ref (withBall 0x5000#16 0#16 0#16 0#16).ball ∧
    ¬FloorInPlayfield Config.ref (withBall 0#16 0x4000#16 0#16 0#16).ball ∧
    ¬FloorInPlayfield Config.ref (withBall 0xFFFF#16 0#16 0#16 0#16).ball := by decide
theorem witness_FrameIsTheSequenceOfWrites : State.reset.fb.wf = true ∧ (Memory.mk [(0, 0x55#8), (18431, 0x55#8)]).wf = true := by decide
theorem witness_BorderRingIsOnePixelAround : inRing Config.ref (7 : Nat) (23 : Nat) = true ∧ OnBorder Config.ref 88 88 ∧
    ¬OnBorder Config.ref 6 23 ∧ ¬OnBorder Config.ref 8 24 := by decide
theorem witness_BallPixelIsInTheInterior : OnBall Config.ref State.reset.ball 8 24 ∧
    OnBall Config.ref (withBall 0x4FFF#16 0x3FFF#16 0#16 0#16).ball 87 87 := by decide
theorem witness_PixelByteOrderCannotBeObserved : (∃ t, exec .draw State.reset = .next t) ∧ pixAddr 95 95 = 18430 := ⟨⟨_, rfl⟩, rfl⟩
theorem witness_OperandsNeverInfluenceTheBallOrTheFrame : haltedState.cfg = State.reset.cfg ∧ haltedState.ball = State.reset.ball ∧
    haltedState.q ≠ State.reset.q := by decide
theorem witness_CommandsLeaveTheRestAlone :
    shows (exec (.fdiv 3 2 1) (withRegs [(2, 0x0500#16)])) (fun t => t.halt) = true ∧
    shows (exec (.fadd 3 1 2) State.reset) (fun t => !t.halt) = true ∧ destReg (.fadd 3 1 2) = some 3 ∧ destReg (.fget 3) = none := by decide
theorem witness_FaultsHaveExactlyTheirCauses :
    shows (step (offered State.reset [.command 0x23000000#32])) (fun t => t.halt && t.cause == .illegal) = true ∧
    shows (step (offered State.reset [.command 0x14321000#32])) (fun t => t.halt && t.cause == .divzero) = true ∧
    shows (step (offered (withBall 0x5000#16 0#16 0#16 0#16) [.command 0x22000000#32])) (fun t => t.halt && t.cause == .range) = true := by decide
theorem witness_FaultsArePrecise :
    shows (step (offered State.reset [.command 0x04700000#32])) (fun t => !t.halt) = true ∧
    shows (step (offered State.reset [.command 0x14321000#32])) (fun t => t.halt) = true := by decide
theorem witness_HaltedBlockAnswersAndChangesNothing : haltedState.cfg.wf = true ∧ haltedState.halt = true ∧
    (18431#15 : BitVec 15).toNat < 18432 := by decide
theorem witness_OnlyResetLeavesTheHaltedState :
    shows (step (offered haltedState [.reset])) (fun t => !t.halt) = true ∧
    shows (step (offered haltedState [.command 0x04700000#32])) (fun t => t.halt) = true ∧ haltedState.halt = true := by decide
theorem witness_ResetGivesTheResetState : (offered haltedState [.reset]).cfg.wf = true := by decide
theorem witness_ResetMeetsTheInvariant : ({ pfW := 1, pfH := 1, pfLeft := 1, pfTop := 1 } : Config).wf = true := by decide
theorem witness_EveryStepKeepsTheInvariant : (∃ t, step State.reset = .next t) ∧ State.reset.Inv := ⟨⟨_, rfl⟩, witness_reset_inv⟩
theorem witness_EveryStepKeepsTheFrameBufferCanonical : (∃ t, step (offered State.reset [.command 0x22000000#32]) = .next t) ∧
    State.reset.fb.wf = true := ⟨⟨_, rfl⟩, rfl⟩
theorem witness_PixelsPartitionTheFrameBuffer : pixAddr 95 95 + 1 = 18431 ∧ pixAddr 0 1 = 192 ∧ columnOf 191 = 95 ∧ rowOf 191 = 0 := by
  decide
theorem witness_SinkReadsTheFrameBufferAndChangesNothing : State.reset.cfg.wf = true ∧ (18431#15 : BitVec 15).toNat < 18432 ∧
    18432 ≤ (18432#15 : BitVec 15).toNat := by decide
theorem witness_FrameStaysUntilTheNextDraw :
    ([.command 0x21000000#32, .sinkRead 0#15] : List Input).all (fun e => !e.isReset && !e.isDraw) = true ∧
    shows (Host.Core.run Sys2Proof.core 2 (offered State.reset [.command 0x21000000#32, .sinkRead 0#15])) (fun t => !t.halt) = true := by decide

end Sys2Proof.Tests
end

/-! PROOFS. Scope (spec/00_scope.md): what a well-formed configuration is (R7), and that under one every step answers
(R9). -/

namespace Sys2Proof

/-- R7's six conditions as arithmetic: the one place where `Config.wf` is unfolded. -/
theorem Config.wf_iff (c : Config) :
    c.wf = true ↔ 1 ≤ c.pfW ∧ 1 ≤ c.pfH ∧ 1 ≤ c.pfLeft ∧ 1 ≤ c.pfTop ∧
      c.pfLeft + c.pfW ≤ 95 ∧ c.pfTop + c.pfH ≤ 95 := by
  simp only [Config.wf, displayW, displayH, Bool.and_eq_true, decide_eq_true_eq, and_assoc, Nat.reduceSub]

/-- An offset of at least 1 leaves each extent at most 94. -/
theorem Config.extents_le_of_wf {c : Config} (h : c.wf = true) : c.pfW ≤ 94 ∧ c.pfH ≤ 94 := by
  obtain ⟨-, -, hleft, htop, hright, hbottom⟩ := c.wf_iff.mp h
  omega

end Sys2Proof

namespace Sys2Proof.Machine

/-! ### A step, by the configuration and the first input -/

theorem step_of_not_wf {s : State} (h : s.cfg.wf = false) : step s = .refused .illFormedConfig := by
  simp [step, h]

theorem step_of_no_input {s : State} (h : s.cfg.wf = true) (hi : s.inputs = []) : step s = .next s := by
  simp [step, State.takeInput, h, hi]

theorem step_of_input {s : State} {e : Input} {rest : List Input} (h : s.cfg.wf = true)
    (hi : s.inputs = e :: rest) : step s = perform e { s with inputs := rest } := by
  simp [step, State.takeInput, h, hi]

/-! ### Every input is answered -/

/-- An accepted word is answered whether the block is halted, the word is no command, or its rule runs (R84). -/
theorem acceptCommand_total (w : CmdWord) (s : State) : ∃ t, acceptCommand w s = .next t := by
  unfold acceptCommand
  split
  · exact ⟨_, rfl⟩
  · split
    · exact ⟨_, rfl⟩
    · exact exec_total _ s

theorem perform_total (e : Input) (s : State) : ∃ t, perform e s = .next t := by
  cases e with
  | command w => exact acceptCommand_total w s
  | reset => exact ⟨s.applyReset, rfl⟩
  | sinkRead a => exact ⟨s.presentAddress a, rfl⟩

/-! ### The obligations -/

/-- Settles O12, by cases on the inputs: an idle block stays as it is, and a first input is answered. -/
theorem everyStepAnswers : Obligations.EveryStepAnswers := by
  intro s hwf
  cases hi : s.inputs with
  | nil => exact ⟨s, step_of_no_input hwf hi⟩
  | cons e rest =>
    rw [step_of_input hwf hi]
    exact perform_total e _

/-- Settles O11, from the six conditions as arithmetic and `step`'s test of the configuration. -/
theorem illFormedConfigurationIsRefused : Obligations.IllFormedConfigurationIsRefused :=
  ⟨Config.wf_iff, fun _ => Config.extents_le_of_wf, fun _ => step_of_not_wf⟩

end Sys2Proof.Machine

/-! PROOFS. State (spec/10_state.md): what each shared operation keeps of the invariant (R25, R29, R30, R53, R146), what
changes the ball (R26), what a reset gives (R34), and what the status outputs show (R35). -/

namespace Sys2Proof.Machine

/-! ### ADVANCE's word -/

/-- A format without operands leaves one word: the row's `match` (R72). -/
theorem fits_iff_eq_pattern {o : Op} (hz : o.format = .z) (w : CmdWord) : o.fits w = true ↔ w = o.pattern := by
  have hmask : w &&& 0xFFFFFFFF#32 = w := BitVec.and_allOnes
  simp only [Op.fits, hz, Format.mask, hmask, beq_iff_eq]

theorem decode_eq_advance_iff (w : CmdWord) : decode w = .ok .advance ↔ w = 0x21000000#32 := by
  have hfits : Op.advance.fits w = true ↔ w = 0x21000000#32 := fits_iff_eq_pattern rfl w
  rw [decode_ok_iff, ← hfits]
  constructor
  · rintro ⟨o, ho, hi⟩
    have hop : Op.advance = o := (congrArg Instr.op hi).trans (operands_op o w)
    exact hop ▸ ho
  · exact fun h => ⟨.advance, h, rfl⟩

/-! ### ADVANCE and DRAW, as functions of the configuration and the ball -/

theorem exec_advance (s : State) :
    exec .advance s = .next ({ s with ball := s.ball.tick s.cfg }.respond .ok 0x0000#16) := rfl

theorem exec_draw_of_floorInPlayfield {s : State} (h : FloorInPlayfield s.cfg s.ball) :
    exec .draw s = .next
      ({ s with fb := frame s.cfg (fxFloor s.ball.position.x) (fxFloor s.ball.position.y) }.respond .ok 0x0000#16) :=
  if_pos ((inPlayfield_iff s.cfg s.ball).mpr h)

/-! ### What changes the ball -/

theorem exec_keeps_ball {i : Instr} {s t : State} (h : exec i s = .next t) (hi : i ≠ .advance) : t.ball = s.ball := by
  rcases exec_next_cases h with ⟨_, _, -, rfl⟩ | ⟨_, -, -, -, rfl⟩ | ⟨hadv, -⟩ | ⟨-, -, rfl⟩ | ⟨_, _, _, -, -, rfl⟩ |
    ⟨-, -, rfl⟩
  case inr.inr.inl => exact absurd hadv hi
  all_goals rfl

theorem acceptCommand_keeps_ball {w : CmdWord} {s t : State} (h : acceptCommand w s = .next t)
    (hw : w ≠ 0x21000000#32) : t.ball = s.ball := by
  rcases acceptCommand_next_cases h with ⟨-, rfl⟩ | ⟨-, -, rfl⟩ | ⟨-, i, hi, hexec⟩
  · rfl
  · rfl
  · refine exec_keeps_ball hexec ?_
    rintro rfl
    exact hw ((decode_eq_advance_iff w).mp hi)

/-! ### What a reset leaves -/

theorem step_of_reset {s : State} {rest : List Input} (hwf : s.cfg.wf = true) (hinputs : s.inputs = .reset :: rest) :
    step s = .next { s with inputs := rest }.applyReset := step_of_input hwf hinputs

theorem reset_getElem_q (r : Reg) : State.reset.q[r] = 0x0000#16 := by simp [State.reset]

/-- After a reset every byte of `FB` is the free byte of this reset (R34; log 5). -/
theorem applyReset_memRead (s : State) {a : Nat} (ha : a < fbBytes) :
    s.applyReset.memRead a = some (Config.fbAtReset (s.resets + 1) a) := by
  simp [State.memRead, Memory.read, findByte, ha]

/-! ### What the ball invariant gives, and what a tick keeps of it -/

theorem State.BallInPlayfield.floorInPlayfield {s : State} (h : s.BallInPlayfield) : FloorInPlayfield s.cfg s.ball := by
  obtain ⟨hx₀, hx₁, hy₀, hy₁⟩ := h
  exact ⟨by omega, by omega, by omega, by omega⟩

/-- One axis of a tick keeps the speed: the reset value and its negation are each other's negation (R146). -/
theorem axisStep_keeps_speed {p v : Word} {ext : Int} (lo : 1 ≤ ext) (hi : ext ≤ 94)
    (hv : v = 0x02D8#16 ∨ v = 0xFD28#16) :
    (axisStep p v ext).2 = 0x02D8#16 ∨ (axisStep p v ext).2 = 0xFD28#16 := by
  rcases axisStep_velocity p v lo hi with h | h
  · rwa [h]
  · rw [h]
    rcases hv with rfl | rfl
    · exact Or.inr rfl
    · exact Or.inl rfl

namespace State.Inv

variable {s t : State}

/-! ### What each update keeps of the invariant -/

/-- The invariant reads neither the operand registers, nor the inputs to come, nor the sink's side, nor the counts. -/
theorem update_unread (h : s.Inv) (q : Vector Word 16) (fbRaddr : BitVec 15) (inputs : List Input) (resets sinkReads : Nat) :
    { s with q := q, fbRaddr := fbRaddr, inputs := inputs, resets := resets, sinkReads := sinkReads }.Inv :=
  ⟨h.cfgWf, h.ballInPlayfield, h.speedKept, h.faultRecordKept, h.noRangeFault, h.frameCanonical, h.frameWhole,
    h.haltAnswered⟩

/-- A block that is not halted may answer anything. -/
theorem respond (h : s.Inv) (hrun : s.halt = false) (st : Status) (d : Word) : (s.respond st d).Inv :=
  { h with haltAnswered := fun hhalt => absurd (hrun.symm.trans hhalt) Bool.false_ne_true }

theorem answerHalted (h : s.Inv) : s.answerHalted.Inv :=
  { h with haltAnswered := fun _ => Or.inr rfl }

/-- Fault entry with the cause ILLEGAL or DIVZERO writes a consistent record (R29, R185). -/
theorem raise (h : s.Inv) {c : Cause} (hnone : c ≠ .none) (hrange : c ≠ .range) (w : CmdWord) : (s.raise c w).Inv :=
  { h with
    faultRecordKept := ⟨by simp [hnone], by simp⟩
    noRangeFault := hrange
    haltAnswered := fun _ => Or.inl rfl }

/-- A tick ends in the playfield (R144) and keeps the speed (R146). -/
theorem tick (h : s.Inv) : { s with ball := s.ball.tick s.cfg }.Inv := by
  obtain ⟨hW, hH, -⟩ := s.cfg.wf_iff.mp h.cfgWf
  obtain ⟨hW', hH'⟩ := Config.extents_le_of_wf h.cfgWf
  obtain ⟨hvx, hvy⟩ := h.speedKept
  obtain ⟨hx₀, hx₁⟩ := axisStep_bounds s.ball.position.x s.ball.velocity.x (ext := s.cfg.pfW) (by omega) (by omega)
  obtain ⟨hy₀, hy₁⟩ := axisStep_bounds s.ball.position.y s.ball.velocity.y (ext := s.cfg.pfH) (by omega) (by omega)
  exact { h with
    ballInPlayfield := ⟨hx₀, hx₁, hy₀, hy₁⟩
    speedKept :=
      ⟨axisStep_keeps_speed (by omega) (by omega) hvx, axisStep_keeps_speed (by omega) (by omega) hvy⟩ }

/-- A drawn frame is canonical, and it is whole with bytes `0x00` and `0xFF` only (R53). -/
theorem draw (h : s.Inv) (bi bj : Int) : { s with fb := frame s.cfg bi bj }.Inv :=
  { h with
    frameCanonical := frame_wf s.cfg bi bj
    frameWhole := Or.inr ⟨frame_keys s.cfg bi bj, fun c hc => frame_cell s.cfg bi bj c hc ▸ frameByte_cases ..⟩ }

end State.Inv

/-- The ball starts in the corner of every playfield, since each extent is at least 1 (R7, R24). -/
theorem resetWith_inv {c : Config} (hwf : c.wf = true) : (State.resetWith c).Inv := by
  obtain ⟨hW, hH, -⟩ := c.wf_iff.mp hwf
  refine ⟨hwf, ⟨le_rfl, ?_, le_rfl, ?_⟩, ⟨Or.inl rfl, Or.inl rfl⟩, ⟨iff_of_true rfl rfl, fun _ => rfl⟩, nofun, rfl,
    Or.inl rfl, nofun⟩
  · change (0 : Int) < c.pfW * 256
    omega
  · change (0 : Int) < c.pfH * 256
    omega

/-! ### What a command, an accepted word, an input and a step keep of it -/

namespace State.Inv

variable {s t : State}

/-- RANGE cannot be entered, since the ball's floor lies in the playfield (R165). -/
theorem exec_keeps {i : Instr} (h : s.Inv) (hrun : s.halt = false) (hexec : exec i s = .next t) : t.Inv := by
  rcases exec_next_cases hexec with ⟨rd, v, -, rfl⟩ | ⟨d, -, -, -, rfl⟩ | ⟨-, rfl⟩ | ⟨-, -, rfl⟩ |
    ⟨_, _, _, -, -, rfl⟩ | ⟨-, hout, -⟩
  · have hwrite : (s.writeReg rd v).Inv := h.update_unread ..
    exact hwrite.respond hrun _ _
  · exact h.respond hrun _ _
  · exact h.tick.respond hrun _ _
  · exact (h.draw _ _).respond hrun _ _
  · exact h.raise (c := .divzero) (by decide) (by decide) _
  · have hin := (inPlayfield_iff s.cfg s.ball).mpr h.ballInPlayfield.floorInPlayfield
    exact absurd (hin.symm.trans hout) (by decide)

theorem acceptCommand_keeps {w : CmdWord} (h : s.Inv) (hacc : acceptCommand w s = .next t) : t.Inv := by
  rcases acceptCommand_next_cases hacc with ⟨-, rfl⟩ | ⟨-, -, rfl⟩ | ⟨hrun, i, -, hexec⟩
  · exact h.answerHalted
  · exact h.raise (c := .illegal) (by decide) (by decide) w
  · exact h.exec_keeps hrun hexec

theorem perform_keeps {e : Input} (h : s.Inv) (hperf : perform e s = .next t) : t.Inv := by
  rcases perform_next_cases hperf with ⟨w, -, hacc⟩ | ⟨-, rfl⟩ | ⟨a, -, rfl⟩
  · exact h.acceptCommand_keeps hacc
  · exact (resetWith_inv h.cfgWf).update_unread ..
  · exact h.update_unread ..

theorem step_keeps (h : s.Inv) (hstep : step s = .next t) : t.Inv := by
  obtain ⟨-, ⟨-, rfl⟩ | ⟨e, rest, -, hperf⟩⟩ := step_next_cases hstep
  · exact h
  · have htaken : { s with inputs := rest }.Inv := h.update_unread ..
    exact htaken.perform_keeps hperf

end State.Inv

/-! ### The obligations -/

/-- Settles O56, from what every input keeps of the invariant. -/
theorem everyStepKeepsTheInvariant : Obligations.EveryStepKeepsTheInvariant :=
  fun _ _ => State.Inv.step_keeps

/-- Settles O37, by cases on the input taken: a command word other than ADVANCE's, a sink read and an idle step keep the
ball. -/
theorem onlyAdvanceAndResetChangeTheBall : Obligations.OnlyAdvanceAndResetChangeTheBall := by
  intro s t hstep hball
  obtain ⟨-, ⟨-, rfl⟩ | ⟨e, rest, hinputs, hperf⟩⟩ := step_next_cases hstep
  · exact absurd rfl hball
  · rcases perform_next_cases hperf with ⟨w, rfl, hacc⟩ | ⟨rfl, -⟩ | ⟨a, -, rfl⟩
    · by_cases hw : w = 0x21000000#32
      · exact Or.inr ⟨rest, hw ▸ hinputs⟩
      · exact absurd (acceptCommand_keeps_ball hacc hw) hball
    · exact Or.inl ⟨rest, hinputs⟩
    · exact absurd rfl hball

/-- Settles O8: each output is its field, and `cause` is the field's code, cause by cause. -/
theorem statusOutputsCopyTheState : Obligations.StatusOutputsCopyTheState := by
  intro s
  refine ⟨rfl, ?_, rfl, rfl, rfl, rfl, rfl⟩
  unfold State.causeOut
  cases s.cause <;> rfl

/-- Settles O47: the ball after ADVANCE and the frame after DRAW are functions of the configuration and the ball. -/
theorem operandsNeverInfluenceTheBallOrTheFrame : Obligations.OperandsNeverInfluenceTheBallOrTheFrame := by
  intro s s' t t' hcfg hball
  constructor
  · intro h h'
    rw [exec_advance] at h h'
    cases h
    cases h'
    simp [hcfg, hball]
  · intro hfloor h h'
    rw [exec_draw_of_floorInPlayfield hfloor] at h
    rw [exec_draw_of_floorInPlayfield (hcfg ▸ hball ▸ hfloor)] at h'
    cases h
    cases h'
    simp [hcfg, hball]

/-- Settles O54: the step on a reset answers `applyReset`, whose fields are those of the reset table. -/
theorem resetGivesTheResetState : Obligations.ResetGivesTheResetState := by
  intro s rest hwf hinputs
  exact ⟨{ s with inputs := rest }.applyReset, step_of_reset hwf hinputs, reset_getElem_q, rfl, rfl, rfl, rfl, rfl,
    fun _ => applyReset_memRead _, rfl, rfl, rfl, rfl⟩

/-- Settles O55, from the extents of at least 1 of a well-formed configuration. -/
theorem resetMeetsTheInvariant : Obligations.ResetMeetsTheInvariant :=
  fun _ => resetWith_inv

end Sys2Proof.Machine

/-! PROOFS. Memory (spec/20_memory.md): which byte of `FB` each pixel owns (R51, R52), what the sink reads (R53, R54, R57,
R58), and that only DRAW and a reset touch `FB` (R50, R56, R60). -/

namespace Sys2Proof.Machine

/-! ### The layout of the pixels -/

/-- A row of pixels is 192 bytes (R51). -/
theorem pixAddr_eq (x y : Nat) : pixAddr x y = 192 * y + 2 * x := by
  simp only [pixAddr, displayW]
  omega

/-- The two bytes of a pixel, `k = 0` and `k = 1`, lie in its row, and their addresses give the pixel back. -/
theorem columnOf_pixAddr_add {x k : Nat} (y : Nat) (hx : x < 96) (hk : k < 2) : columnOf (pixAddr x y + k) = x := by
  rw [pixAddr_eq, columnOf]
  omega

theorem rowOf_pixAddr_add {x k : Nat} (y : Nat) (hx : x < 96) (hk : k < 2) : rowOf (pixAddr x y + k) = y := by
  rw [pixAddr_eq, rowOf]
  omega

theorem pixAddr_add_one_lt_fbBytes {x y : Nat} (hx : x < 96) (hy : y < 96) : pixAddr x y + 1 < fbBytes := by
  rw [pixAddr_eq, fbBytes]
  omega

/-- An address is its pixel's first byte or its second. -/
theorem eq_pixAddr_columnOf_rowOf (a : Nat) :
    a = pixAddr (columnOf a) (rowOf a) ∨ a = pixAddr (columnOf a) (rowOf a) + 1 := by
  rw [pixAddr_eq, columnOf, rowOf]
  omega

/-- Settles O58: `pixAddr` counts 192 bytes a row and 2 a pixel, and `columnOf` and `rowOf` invert it. -/
theorem pixelsPartitionTheFrameBuffer : Obligations.PixelsPartitionTheFrameBuffer := by
  constructor
  · intro x y hx hy
    have haddr := pixAddr_eq x y
    exact ⟨pixAddr_add_one_lt_fbBytes hx hy, by omega, by omega,
      columnOf_pixAddr_add (k := 0) y hx (by decide), rowOf_pixAddr_add (k := 0) y hx (by decide),
      columnOf_pixAddr_add (k := 1) y hx (by decide), rowOf_pixAddr_add (k := 1) y hx (by decide)⟩
  · intro a ha
    exact ⟨by rw [columnOf]; omega, by rw [rowOf]; omega, eq_pixAddr_columnOf_rowOf a⟩

/-! ### What a read gives -/

theorem State.memRead_of_lt (s : State) {a : Nat} (h : a < fbBytes) :
    s.memRead a = some ((s.fb.read a).getD (Config.fbAtReset s.resets a)) := if_pos h

theorem State.memRead_of_le (s : State) {a : Nat} (h : fbBytes ≤ a) : s.memRead a = none := if_neg (by omega)

/-- The read port shows the byte of `FB` at the presented address (R57). -/
theorem State.some_fbRdata {s : State} (h : s.fbRaddr.toNat < fbBytes) : some s.fbRdata = s.memRead s.fbRaddr.toNat := by
  rw [State.fbRdata, s.memRead_of_lt h, Option.getD_some]

theorem step_of_sinkRead {s : State} {a : BitVec 15} {rest : List Input} (hwf : s.cfg.wf = true)
    (hinputs : s.inputs = .sinkRead a :: rest) : step s = .next ({ s with inputs := rest }.presentAddress a) :=
  step_of_input hwf hinputs

/-- Settles O59: the step on a sink read is `presentAddress`, which leaves `fb` and `resets`. -/
theorem sinkReadsTheFrameBufferAndChangesNothing : Obligations.SinkReadsTheFrameBufferAndChangesNothing := by
  intro s a rest hwf hinputs
  refine ⟨_, step_of_sinkRead hwf hinputs, rfl, fun hinside => ?_, State.memRead_of_le _⟩
  exact (State.some_fbRdata hinside).trans (State.memRead_congr (s := s) rfl rfl _)

/-! ### A drawn pixel -/

/-- Where the memory is a drawn frame, a read gives that frame's byte. -/
theorem State.memRead_of_fb_eq_frame {s : State} {c : Config} {bi bj : Int} (hfb : s.fb = frame c bi bj) {a : Nat}
    (ha : a < fbBytes) : s.memRead a = some (frameByte c bi bj a) := by
  rw [s.memRead_of_lt ha, hfb, frame_read, if_pos ha, Option.getD_some]

/-- A frame's byte depends on its pixel only. -/
theorem frameByte_congr {c : Config} {bi bj : Int} {a b : Nat} (hcolumn : columnOf a = columnOf b)
    (hrow : rowOf a = rowOf b) : frameByte c bi bj a = frameByte c bi bj b := by
  rw [frameByte, frameByte, hcolumn, hrow]

/-- A pixel whose two bytes are equal reads the same in either byte order (R54). -/
theorem State.pixelValue_of_equal_bytes {s : State} {x y : Nat} {b : Byte} (hfirst : s.memRead (pixAddr x y) = some b)
    (hsecond : s.memRead (pixAddr x y + 1) = some b) (o : PixelByteOrder) : s.pixelValue o x y = some (b ++ b) := by
  cases o <;> simp only [State.pixelValue, hfirst, hsecond]

/-- In a drawn frame both bytes of a pixel are the first one's (R53). -/
theorem State.pixelValue_of_fb_eq_frame {s : State} {c : Config} {bi bj : Int} (hfb : s.fb = frame c bi bj) {x y : Nat}
    (hx : x < 96) (hy : y < 96) (o : PixelByteOrder) :
    s.pixelValue o x y = some (frameByte c bi bj (pixAddr x y) ++ frameByte c bi bj (pixAddr x y)) := by
  have hlt := pixAddr_add_one_lt_fbBytes hx hy
  have hequal : frameByte c bi bj (pixAddr x y + 1) = frameByte c bi bj (pixAddr x y) :=
    frameByte_congr
      ((columnOf_pixAddr_add y hx (by decide)).trans (columnOf_pixAddr_add (k := 0) y hx (by decide)).symm)
      ((rowOf_pixAddr_add y hx (by decide)).trans (rowOf_pixAddr_add (k := 0) y hx (by decide)).symm)
  exact s.pixelValue_of_equal_bytes (memRead_of_fb_eq_frame hfb (by omega))
    (hequal ▸ memRead_of_fb_eq_frame hfb hlt) o

theorem fb_of_exec_draw {s t : State} (hfloor : FloorInPlayfield s.cfg s.ball) (h : exec .draw s = .next t) :
    t.fb = frame s.cfg (fxFloor s.ball.position.x) (fxFloor s.ball.position.y) := by
  rw [exec_draw_of_floorInPlayfield hfloor] at h
  cases h
  rfl

/-- Settles O46: both bytes of a drawn pixel are one byte of the frame, which is `0x00` or `0xFF`. -/
theorem pixelByteOrderCannotBeObserved : Obligations.PixelByteOrderCannotBeObserved := by
  intro s t x y hfloor hexec hx hy
  have hpixel := State.pixelValue_of_fb_eq_frame (fb_of_exec_draw hfloor hexec) hx hy
  rw [hpixel, hpixel]
  refine ⟨rfl, ?_⟩
  rcases frameByte_cases s.cfg (fxFloor s.ball.position.x) (fxFloor s.ball.position.y) (pixAddr x y) with h | h
  · rw [h]
    exact Or.inl rfl
  · rw [h]
    exact Or.inr rfl

/-! ### What touches `FB` -/

/-- A word that decodes fits the row of its command. -/
theorem op_fits_of_decode {w : CmdWord} {i : Instr} (h : decode w = .ok i) : i.op.fits w = true := by
  obtain ⟨o, hfits, rfl⟩ := (decode_ok_iff w i).mp h
  rwa [operands_op]

theorem eq_draw_word_of_decode {w : CmdWord} (h : decode w = .ok .draw) : w = 0x22000000#32 :=
  (fits_iff_eq_pattern (o := .draw) rfl w).mp (op_fits_of_decode h)

theorem exec_fb_cases {i : Instr} {s t : State} (h : exec i s = .next t) :
    t.fb = s.fb ∨ i = .draw ∧ ∃ bi bj, t.fb = frame s.cfg bi bj := by
  rcases exec_next_cases h with ⟨_, _, -, rfl⟩ | ⟨_, -, -, -, rfl⟩ | ⟨-, rfl⟩ | ⟨hdraw, -, rfl⟩ |
    ⟨_, _, _, -, -, rfl⟩ | ⟨-, -, rfl⟩
  case inr.inr.inr.inl => exact Or.inr ⟨hdraw, _, _, rfl⟩
  all_goals exact Or.inl rfl

theorem acceptCommand_fb_cases {w : CmdWord} {s t : State} (h : acceptCommand w s = .next t) :
    t.fb = s.fb ∨ w = 0x22000000#32 ∧ ∃ bi bj, t.fb = frame s.cfg bi bj := by
  rcases acceptCommand_next_cases h with ⟨-, rfl⟩ | ⟨-, -, rfl⟩ | ⟨-, i, hdecode, hexec⟩
  · exact Or.inl rfl
  · exact Or.inl rfl
  · rcases exec_fb_cases hexec with hfb | ⟨rfl, hframe⟩
    · exact Or.inl hfb
    · exact Or.inr ⟨eq_draw_word_of_decode hdecode, hframe⟩

/-- An input leaves `FB`, empties it by a reset, or draws a frame. -/
theorem perform_fb_cases {e : Input} {s t : State} (h : perform e s = .next t) :
    t.fb = s.fb ∨ (e = .reset ∧ t.fb = { cells := [] }) ∨ e.isDraw = true ∧ ∃ bi bj, t.fb = frame s.cfg bi bj := by
  rcases perform_next_cases h with ⟨w, rfl, hacc⟩ | ⟨rfl, rfl⟩ | ⟨a, -, rfl⟩
  · rcases acceptCommand_fb_cases hacc with hfb | ⟨rfl, hframe⟩
    · exact Or.inl hfb
    · exact Or.inr (Or.inr ⟨rfl, hframe⟩)
  · exact Or.inr (Or.inl ⟨rfl, rfl⟩)
  · exact Or.inl rfl

/-- Settles O57: what stands in `FB` after an input is what stood there, nothing, or a drawn frame. -/
theorem everyStepKeepsTheFrameBufferCanonical : Obligations.EveryStepKeepsTheFrameBufferCanonical := by
  intro s t hcanonical hstep
  obtain ⟨-, ⟨-, rfl⟩ | ⟨e, rest, -, hperf⟩⟩ := step_next_cases hstep
  · exact hcanonical
  · rcases perform_fb_cases hperf with hfb | ⟨-, hfb⟩ | ⟨-, _, _, hfb⟩
    · exact hfb ▸ hcanonical
    · exact hfb ▸ reset_fb_wf
    · exact hfb ▸ frame_wf ..

/-! ### Runs without DRAW and reset -/

theorem exec_keeps_inputs_and_resets {i : Instr} {s t : State} (h : exec i s = .next t) :
    t.inputs = s.inputs ∧ t.resets = s.resets := by
  rcases exec_next_cases h with ⟨_, _, -, rfl⟩ | ⟨_, -, -, -, rfl⟩ | ⟨-, rfl⟩ | ⟨-, -, rfl⟩ |
    ⟨_, _, _, -, -, rfl⟩ | ⟨-, -, rfl⟩
  all_goals exact ⟨rfl, rfl⟩

theorem acceptCommand_keeps_inputs_and_resets {w : CmdWord} {s t : State} (h : acceptCommand w s = .next t) :
    t.inputs = s.inputs ∧ t.resets = s.resets := by
  rcases acceptCommand_next_cases h with ⟨-, rfl⟩ | ⟨-, -, rfl⟩ | ⟨-, i, -, hexec⟩
  · exact ⟨rfl, rfl⟩
  · exact ⟨rfl, rfl⟩
  · exact exec_keeps_inputs_and_resets hexec

theorem perform_keeps_inputs_and_resets {e : Input} {s t : State} (h : perform e s = .next t)
    (hreset : e.isReset = false) : t.inputs = s.inputs ∧ t.resets = s.resets := by
  rcases perform_next_cases h with ⟨w, -, hacc⟩ | ⟨rfl, -⟩ | ⟨a, -, rfl⟩
  · exact acceptCommand_keeps_inputs_and_resets hacc
  · cases hreset
  · exact ⟨rfl, rfl⟩

theorem perform_keeps_fb {e : Input} {s t : State} (h : perform e s = .next t) (hreset : e.isReset = false)
    (hdraw : e.isDraw = false) : t.fb = s.fb := by
  rcases perform_fb_cases h with hfb | ⟨rfl, -⟩ | ⟨hdraw', -⟩
  · exact hfb
  · cases hreset
  · exact absurd (hdraw'.symm.trans hdraw) (by decide)

/-- A step on an input other than DRAW and reset takes that input and leaves every byte of `FB` (R56, R60). -/
theorem step_keeps_memRead {e : Input} {rest : List Input} {s t : State} (h : step s = .next t)
    (hinputs : s.inputs = e :: rest) (hreset : e.isReset = false) (hdraw : e.isDraw = false) :
    t.inputs = rest ∧ ∀ a : Nat, t.memRead a = s.memRead a := by
  obtain ⟨hwf, -⟩ := step_next_cases h
  rw [step_of_input hwf hinputs] at h
  obtain ⟨hrest, hresets⟩ := perform_keeps_inputs_and_resets h hreset
  have hfb := perform_keeps_fb h hreset hdraw
  exact ⟨hrest, State.memRead_congr (s := s) hfb hresets⟩

/-- Settles O60, by induction on the inputs of the run. -/
theorem frameStaysUntilTheNextDraw : Obligations.FrameStaysUntilTheNextDraw := by
  intro l
  induction l with
  | nil =>
    intro s t _ _ hrun a
    cases hrun
    rfl
  | cons e rest ih =>
    intro s t hinputs hquiet hrun a
    obtain ⟨⟨hreset, hdraw⟩, hquietRest⟩ := List.forall_mem_cons.mp hquiet
    obtain ⟨u, hstep, hrunRest⟩ := core_run_succ hrun
    obtain ⟨hrest, hread⟩ := step_keeps_memRead hstep hinputs hreset hdraw
    exact (ih u t hrest hquietRest hrunRest a).trans (hread a)

end Sys2Proof.Machine

/-! PROOFS. Encoding (spec/30_encoding.md): a well-formed command and its word determine each other (R71 to R76), the words
of the opcode map (R72, R73, R75), the response (R78 to R80), and what a step does with an accepted word (R84). -/

namespace Sys2Proof

open Machine (op_fits_of_decode)

/-! ### The decoder's fields of a laid-out word -/

@[simp] theorem rdField_regLayout (o : Op) (rd : Reg) (ra rb : BitVec 4) :
    rdField (regLayout o (regBits rd) ra rb) = rd := by rw [rdField, regLayout_rd]; rfl

@[simp] theorem raField_regLayout (o : Op) (rd : BitVec 4) (ra : Reg) (rb : BitVec 4) :
    raField (regLayout o rd (regBits ra) rb) = ra := by rw [raField, regLayout_ra]; rfl

@[simp] theorem rbField_regLayout (o : Op) (rd ra : BitVec 4) (rb : Reg) :
    rbField (regLayout o rd ra (regBits rb)) = rb := by rw [rbField, regLayout_rb]; rfl

@[simp] theorem rdField_immLayout (o : Op) (rd : Reg) (imm : Word) : rdField (immLayout o (regBits rd) imm) = rd := by
  rw [rdField, immLayout_rd]; rfl

@[simp] theorem imm16Field_immLayout (o : Op) (rd : BitVec 4) (imm : Word) : imm16Field (immLayout o rd imm) = imm :=
  immLayout_imm16 o rd imm

/-- FINT's immediate is read back as the integer it was written from, inside the 8-bit signed range (R76 (b)). -/
theorem imm8Field_immLayout (o : Op) (rd : BitVec 4) {n : Int} (lo : -128 ≤ n) (hi : n ≤ 127) :
    imm8Field (immLayout o rd ((BitVec.ofInt 8 n).setWidth 16)) = n := by
  rw [imm8Field, immLayout_imm8]
  exact BitVec.toInt_ofInt_eq_self (by decide) lo (by omega)

@[simp] theorem selReg_selBits (sel : BallReg) : selReg (selBits sel) = sel := by cases sel <;> rfl

@[simp] theorem selField_immLayout (o : Op) (rd : BitVec 4) (sel : BallReg) :
    selField (immLayout o rd ((selBits sel).setWidth 16)) = sel := by
  rw [selField, immLayout_sel, selReg_selBits]

/-! ### From a command to its word and back -/

open Laws in
/-- A command's word fits the row of its opcode (R72). -/
theorem op_fits_encode (i : Instr) : i.op.fits (encode i) = true := by
  cases i with
  | fraw rd imm16 => exact EncodeFits.fraw rd imm16
  | fint rd n => exact EncodeFits.fint rd n
  | fzero rd => exact EncodeFits.fzero rd
  | fone rd => exact EncodeFits.fone rd
  | fmov rd ra => exact EncodeFits.fmov rd ra
  | fadd rd ra rb => exact EncodeFits.fadd rd ra rb
  | fsub rd ra rb => exact EncodeFits.fsub rd ra rb
  | fneg rd ra => exact EncodeFits.fneg rd ra
  | fmul rd ra rb => exact EncodeFits.fmul rd ra rb
  | fdiv rd ra rb => exact EncodeFits.fdiv rd ra rb
  | ftrunc ra => exact EncodeFits.ftrunc ra
  | fisint ra => exact EncodeFits.fisint ra
  | fcmp ra rb => exact EncodeFits.fcmp ra rb
  | fget ra => exact EncodeFits.fget ra
  | bget rd sel => exact EncodeFits.bget rd sel
  | advance => exact EncodeFits.advance
  | draw => exact EncodeFits.draw

/-- The fields its row uses read a well-formed command's operands back; FINT's integer is the one operand that its type
leaves wider than its field. -/
theorem operands_encode {i : Instr} (h : i.wf = true) : i.op.operands (encode i) = i := by
  cases i
  case fint rd n =>
    obtain ⟨lo, hi⟩ : -128 ≤ n ∧ n ≤ 127 := by simpa [Instr.wf] using h
    simp [Instr.op, Op.operands, encode, imm8Field_immLayout _ _ lo hi]
  all_goals simp [Instr.op, Op.operands, encode]

/-- Settles O1: a command's word fits the command's row, whose fields read the operands back. -/
theorem encodedCommandDecodesToItself : Obligations.EncodedCommandDecodesToItself := by
  intro i hwf
  rw [decode_of_fits (op_fits_encode i), operands_encode hwf]

/-! ### From a word to its command and back -/

/-- What the decoder reads into FINT is an 8-bit signed integer (R76 (b)). -/
theorem operands_wf (o : Op) (w : CmdWord) : (o.operands w).wf = true := by
  cases o
  case fint =>
    have lo : -128 ≤ imm8Field w := (w.extractLsb' 0 8).le_toInt
    have hi : imm8Field w < 128 := (w.extractLsb' 0 8).toInt_lt
    simp only [Op.operands, Instr.wf, Bool.and_eq_true, decide_eq_true_eq]
    omega
  all_goals rfl

theorem fits_iff (o : Op) (w : CmdWord) : o.fits w = true ↔ w &&& o.format.mask = o.pattern := beq_iff_eq

/-- Words of one row agree in every field that the row's mask compares (R72). -/
theorem field_eq_of_fits {o : Op} {v w : CmdWord} (hv : o.fits v = true) (hw : o.fits w = true) (k n : Nat)
    (hmask : o.format.mask.extractLsb' k n = BitVec.allOnes n) : v.extractLsb' k n = w.extractLsb' k n := by
  have hvw : v &&& o.format.mask = w &&& o.format.mask := ((fits_iff o v).mp hv).trans ((fits_iff o w).mp hw).symm
  have hfield := congrArg (fun u : CmdWord => u.extractLsb' k n) hvw
  simpa only [BitVec.extractLsb'_and, hmask, BitVec.and_allOnes] using hfield

/-- Two words that agree above a cut and below it agree on the joined field. -/
theorem field_eq_of_cut {v w : CmdWord} (k m n : Nat) (hhigh : v.extractLsb' (k + m) n = w.extractLsb' (k + m) n)
    (hlow : v.extractLsb' k m = w.extractLsb' k m) : v.extractLsb' k (n + m) = w.extractLsb' k (n + m) := by
  rw [← BitVec.extractLsb'_append_extractLsb'_eq_extractLsb' rfl, hhigh, hlow,
    BitVec.extractLsb'_append_extractLsb'_eq_extractLsb' rfl]

/-- The register layout has no bits outside its five fields (R71). -/
theorem eq_of_regLayout_fields {v w : CmdWord} (hop : v.extractLsb' 24 8 = w.extractLsb' 24 8)
    (hrd : v.extractLsb' 20 4 = w.extractLsb' 20 4) (hra : v.extractLsb' 16 4 = w.extractLsb' 16 4)
    (hrb : v.extractLsb' 12 4 = w.extractLsb' 12 4) (hz : v.extractLsb' 0 12 = w.extractLsb' 0 12) : v = w := by
  have h := field_eq_of_cut 0 24 8 hop (field_eq_of_cut 0 20 4 hrd (field_eq_of_cut 0 16 4 hra (field_eq_of_cut 0 12 4 hrb hz)))
  simpa using h

/-- The immediate layout has no bits outside its four fields (R71). -/
theorem eq_of_immLayout_fields {v w : CmdWord} (hop : v.extractLsb' 24 8 = w.extractLsb' 24 8)
    (hrd : v.extractLsb' 20 4 = w.extractLsb' 20 4) (hz : v.extractLsb' 16 4 = w.extractLsb' 16 4)
    (himm : v.extractLsb' 0 16 = w.extractLsb' 0 16) : v = w := by
  have h := field_eq_of_cut 0 24 8 hop (field_eq_of_cut 0 20 4 hrd (field_eq_of_cut 0 16 4 hz himm))
  simpa using h

/-- The four selector values name four ball registers (R76 (c)). -/
theorem selReg_injective {a b : BitVec 2} (h : selReg a = selReg b) : a = b := by
  revert a b
  decide

/-- In a row's words every bit is compared by the mask or read as an operand (R72), so the operands leave one word. -/
theorem eq_of_operands_eq {o : Op} {v w : CmdWord} (hv : o.fits v = true) (hw : o.fits w = true)
    (h : o.operands v = o.operands w) : v = w := by
  have masked := field_eq_of_fits hv hw
  cases o
  case fadd | fsub | fmul | fdiv =>
    injection h with hrd hra hrb
    exact eq_of_regLayout_fields (masked 24 8 rfl) (BitVec.toFin_inj.mp hrd) (BitVec.toFin_inj.mp hra)
      (BitVec.toFin_inj.mp hrb) (masked 0 12 rfl)
  case fmov | fneg =>
    injection h with hrd hra
    exact eq_of_regLayout_fields (masked 24 8 rfl) (BitVec.toFin_inj.mp hrd) (BitVec.toFin_inj.mp hra)
      (masked 12 4 rfl) (masked 0 12 rfl)
  case fzero | fone =>
    injection h with hrd
    exact eq_of_regLayout_fields (masked 24 8 rfl) (BitVec.toFin_inj.mp hrd) (masked 16 4 rfl) (masked 12 4 rfl)
      (masked 0 12 rfl)
  case ftrunc | fisint | fget =>
    injection h with hra
    exact eq_of_regLayout_fields (masked 24 8 rfl) (masked 20 4 rfl) (BitVec.toFin_inj.mp hra) (masked 12 4 rfl)
      (masked 0 12 rfl)
  case fcmp =>
    injection h with hra hrb
    exact eq_of_regLayout_fields (masked 24 8 rfl) (masked 20 4 rfl) (BitVec.toFin_inj.mp hra)
      (BitVec.toFin_inj.mp hrb) (masked 0 12 rfl)
  case advance | draw =>
    exact eq_of_regLayout_fields (masked 24 8 rfl) (masked 20 4 rfl) (masked 16 4 rfl) (masked 12 4 rfl)
      (masked 0 12 rfl)
  case fraw =>
    injection h with hrd himm
    exact eq_of_immLayout_fields (masked 24 8 rfl) (BitVec.toFin_inj.mp hrd) (masked 16 4 rfl) himm
  case fint =>
    injection h with hrd hn
    exact eq_of_immLayout_fields (masked 24 8 rfl) (BitVec.toFin_inj.mp hrd) (masked 16 4 rfl)
      (field_eq_of_cut 0 8 8 (masked 8 8 rfl) (BitVec.toInt_inj.mp hn))
  case bget =>
    injection h with hrd hsel
    exact eq_of_immLayout_fields (masked 24 8 rfl) (BitVec.toFin_inj.mp hrd) (masked 16 4 rfl)
      (field_eq_of_cut 0 2 14 (masked 2 14 rfl) (selReg_injective hsel))

/-- Settles O2: the encoding of the command read from a word fits the same row and has the same operands, so it is that
word. -/
theorem decodedWordIsTheCommandsOnlyWord : Obligations.DecodedWordIsTheCommandsOnlyWord := by
  intro w i h
  obtain ⟨o, hfits, rfl⟩ := (decode_ok_iff w i).mp h
  have hwf := operands_wf o w
  have hfits' := op_fits_encode (o.operands w)
  have hoperands := operands_encode hwf
  rw [operands_op] at hfits' hoperands
  exact ⟨hwf, eq_of_operands_eq hfits' hfits hoperands⟩


/-! ### The opcode map -/

/-- The transcribed map holds each opcode's `match` and `mask`, and nothing else (R73). -/
theorem mem_opcodeRows_iff {r : CmdWord × CmdWord} :
    r ∈ Machine.opcodeRows ↔ ∃ o : Op, r = (o.pattern, o.format.mask) := by
  have hrows : Machine.opcodeRows = Op.all.map fun o => (o.pattern, o.format.mask) := rfl
  simp only [hrows, List.mem_map, mem_all, true_and, eq_comm]

/-- A word belongs to at most one row, since a row decides the opcode (R73). -/
theorem op_eq_of_fits {o p : Op} {w : CmdWord} (ho : o.fits w = true) (hp : p.fits w = true) : o = p :=
  code_injective ((opField_of_fits ho).symm.trans (opField_of_fits hp))

theorem exists_decode_iff_exists_fits (w : CmdWord) : (∃ i, decode w = .ok i) ↔ ∃ o : Op, o.fits w = true :=
  ⟨fun ⟨i, h⟩ => ⟨i.op, op_fits_of_decode h⟩, fun ⟨_, h⟩ => ⟨_, decode_of_fits h⟩⟩

/-- Settles O3: the transcribed rows are those of the seventeen opcodes, and no word fits two of them. -/
theorem commandsAreTheWordsOfOneRow : Obligations.CommandsAreTheWordsOfOneRow := by
  constructor
  · intro w
    rw [exists_decode_iff_exists_fits]
    constructor
    · rintro ⟨o, h⟩
      exact ⟨_, mem_opcodeRows_iff.mpr ⟨o, rfl⟩, (fits_iff o w).mp h⟩
    · rintro ⟨r, hr, h⟩
      obtain ⟨o, rfl⟩ := mem_opcodeRows_iff.mp hr
      exact ⟨o, (fits_iff o w).mpr h⟩
  · intro w r hr r' hr' h h'
    obtain ⟨o, rfl⟩ := mem_opcodeRows_iff.mp hr
    obtain ⟨p, rfl⟩ := mem_opcodeRows_iff.mp hr'
    rw [op_eq_of_fits ((fits_iff o w).mpr h) ((fits_iff p w).mpr h')]

/-! ### Illegal words -/

theorem pattern_op (o : Op) : o.pattern.extractLsb' 24 8 = o.code := by cases o <;> rfl

theorem pattern_and_operandBits (o : Op) : o.pattern &&& 0x00FFFFFF#32 = 0#32 := by cases o <;> rfl

theorem opField_and_mask (w : CmdWord) (f : Format) : opField (w &&& f.mask) = opField w := by
  have hmask : f.mask.extractLsb' 24 8 = BitVec.allOnes 8 := by cases f <;> rfl
  rw [opField, BitVec.extractLsb'_and, hmask, BitVec.and_allOnes, opField]

/-- A word is its opcode above its 24 other bits. -/
theorem eq_of_opField_eq_of_operandBits_eq {v w : CmdWord} (hop : opField v = opField w)
    (hbits : v &&& 0x00FFFFFF#32 = w &&& 0x00FFFFFF#32) : v = w := by
  have hlow := congrArg (fun u : CmdWord => u.extractLsb' 0 24) hbits
  have hones : (0x00FFFFFF#32).extractLsb' 0 24 = BitVec.allOnes 24 := rfl
  simp only [BitVec.extractLsb'_and, hones, BitVec.and_allOnes] at hlow
  simpa using field_eq_of_cut 0 24 8 hop hlow

/-- A word belongs to a row when it has the row's opcode and zeros in the row's must-be-zero bits (R72, R75). -/
theorem fits_iff_opField_and_mustBeZero (o : Op) (w : CmdWord) :
    o.fits w = true ↔ opField w = o.code ∧ w &&& o.format.mask &&& 0x00FFFFFF#32 = 0#32 := by
  constructor
  · intro h
    refine ⟨opField_of_fits h, ?_⟩
    rw [(fits_iff o w).mp h, pattern_and_operandBits]
  · rintro ⟨hop, hzero⟩
    refine (fits_iff o w).mpr (eq_of_opField_eq_of_operandBits_eq ?_ ?_)
    · rw [opField_and_mask, hop, opField, pattern_op]
    · rw [hzero, pattern_and_operandBits]

/-- R75's two cases, (a) an unlisted opcode and (b) a listed one with a must-be-zero bit at 1, are the words of no row. -/
theorem unlisted_or_mustBeZero_iff (w : CmdWord) :
    ((∀ r ∈ Machine.opcodeRows, w.extractLsb' 24 8 ≠ r.1.extractLsb' 24 8) ∨
        ∃ r ∈ Machine.opcodeRows,
          w.extractLsb' 24 8 = r.1.extractLsb' 24 8 ∧ w &&& r.2 &&& 0x00FFFFFF#32 ≠ 0#32) ↔
      ¬∃ i, decode w = .ok i := by
  rw [exists_decode_iff_exists_fits]
  constructor
  · rintro (hunlisted | ⟨r, hr, hop, hbits⟩) ⟨p, hp⟩
    · refine hunlisted _ (mem_opcodeRows_iff.mpr ⟨p, rfl⟩) ?_
      rw [pattern_op]
      exact opField_of_fits hp
    · obtain ⟨o, rfl⟩ := mem_opcodeRows_iff.mp hr
      rw [pattern_op] at hop
      obtain rfl : o = p := code_injective (hop.symm.trans (opField_of_fits hp))
      exact hbits ((fits_iff_opField_and_mustBeZero o w).mp hp).2
  · intro hnone
    by_cases hlisted : ∃ o : Op, opField w = o.code
    · obtain ⟨o, hop⟩ := hlisted
      refine Or.inr ⟨_, mem_opcodeRows_iff.mpr ⟨o, rfl⟩, hop.trans (pattern_op o).symm, fun hzero => ?_⟩
      exact hnone ⟨o, (fits_iff_opField_and_mustBeZero o w).mpr ⟨hop, hzero⟩⟩
    · refine Or.inl fun r hr hop => ?_
      obtain ⟨o, rfl⟩ := mem_opcodeRows_iff.mp hr
      exact hlisted ⟨o, hop.trans (pattern_op o)⟩

/-! ### The assembler table's words -/

theorem decode_of_encode_eq {i : Instr} {w : CmdWord} (hwf : i.wf = true) (h : encode i = w) : decode w = .ok i :=
  h ▸ encodedCommandDecodesToItself i hwf

/-- Settles O4, by the round trip: each word of the table is the encoding of the command beside it. -/
theorem exampleWordsDecode : Obligations.ExampleWordsDecode := by
  refine ⟨?_, ?_, ?_, ?_, ?_, ?_, ?_, ?_, ?_, ?_, ?_, ?_, ?_, ?_, ?_, ?_, ?_⟩
  all_goals exact decode_of_encode_eq rfl rfl

end Sys2Proof

namespace Sys2Proof.Machine

/-! ### What an accepted word does -/

theorem acceptCommand_of_halted {s : State} (w : CmdWord) (h : s.halt = true) :
    acceptCommand w s = .next s.answerHalted := if_pos h

theorem acceptCommand_of_decode {w : CmdWord} {i : Instr} {s : State} (h : s.halt = false) (hi : decode w = .ok i) :
    acceptCommand w s = exec i s := by
  simp [acceptCommand, h, hi]

theorem acceptCommand_of_illegal {w : CmdWord} {s : State} (h : s.halt = false) (hw : ¬∃ i, decode w = .ok i) :
    acceptCommand w s = .next (s.raise .illegal w) := by
  cases hd : decode w with
  | ok i => exact absurd ⟨i, hd⟩ hw
  | error err => simp [acceptCommand, h, hd]

/-- Settles O5: R75's words are those of no row, and on such a word the step is the fault entry of ILLEGAL. -/
theorem unlistedWordRaisesIllegal : Obligations.UnlistedWordRaisesIllegal := by
  intro w
  rw [unlisted_or_mustBeZero_iff]
  refine ⟨fun hw s rest hwf hinputs hrun => ?_, not_not.mp⟩
  rw [step_of_command hwf hinputs]
  exact acceptCommand_of_illegal hrun hw

/-- A word offered in front is taken by the next step, and the inputs behind it are as before (log 1). -/
theorem step_of_offerCommand {s : State} (w : CmdWord) (hwf : s.cfg.wf = true) :
    step (s.offerCommand w) = acceptCommand w s := step_of_command hwf rfl

theorem tableWord_32 (n : Nat) : tableWord 32 n = BitVec.ofNat 32 n := by
  apply BitVec.eq_of_toNat_eq
  simp [tableWord]

/-- Settles O9, by `acceptCommand`'s tests in R84's order: halted, no command, a command. -/
theorem stepRunsTheAcceptedWord : Obligations.StepRunsTheAcceptedWord := by
  intro s w rest hwf hinputs
  rw [step_of_command hwf hinputs]
  refine ⟨fun hhalt => acceptCommand_of_halted w hhalt, fun hrun hw => ?_, fun hrun i hi => ?_, fun hrun n i hi => ?_⟩
  · exact acceptCommand_of_illegal hrun fun ⟨i, hi⟩ => hw i hi
  · exact acceptCommand_of_decode hrun hi
  · rw [State.withFetchWord, tableWord_32, step_of_offerCommand _ hwf, acceptCommand_of_decode hrun hi]

/-! ### The response -/

/-- The status stands above the 16 data bits (R78). -/
theorem Response.word_eq_append (r : Response) : r.word = r.status.code ++ r.data := by
  rw [BitVec.append_def, BitVec.shiftLeftZeroExtend_eq, BitVec.setWidth'_eq]
  rfl

/-- Settles O6: the word is the status code appended to the data, status by status. -/
theorem responseWordIsStatusAndData : Obligations.ResponseWordIsStatusAndData := by
  intro r
  rw [r.word_eq_append, BitVec.toNat_append, BitVec.extractLsb'_append_eq_left,
    ← Nat.shiftLeft_add_eq_or_of_lt r.data.isLt, Nat.shiftLeft_eq]
  cases r.status
  all_goals exact ⟨rfl, by decide⟩

/-! ### A command's response, and the data of an OK one row by row (R80) -/

/-- The one response of a command's rule: OK while the block goes on, FAULT with the cause when the rule halts it (R79). -/
theorem exec_response {i : Instr} {s t : State} (hrun : s.halt = false) (h : exec i s = .next t) :
    ∃ r, t.rsp = some r ∧
      (r.status = .ok ∧ t.halt = false ∨ r.status = .fault ∧ t.halt = true ∧ r.data = t.cause.data) := by
  rcases exec_next_cases h with ⟨_, _, -, rfl⟩ | ⟨_, -, -, -, rfl⟩ | ⟨-, rfl⟩ | ⟨-, -, rfl⟩ | ⟨_, _, _, -, -, rfl⟩ |
    ⟨-, -, rfl⟩
  · exact ⟨_, rfl, Or.inl ⟨rfl, hrun⟩⟩
  · exact ⟨_, rfl, Or.inl ⟨rfl, hrun⟩⟩
  · exact ⟨_, rfl, Or.inl ⟨rfl, hrun⟩⟩
  · exact ⟨_, rfl, Or.inl ⟨rfl, hrun⟩⟩
  · exact ⟨_, rfl, Or.inr ⟨rfl, rfl, rfl⟩⟩
  · exact ⟨_, rfl, Or.inr ⟨rfl, rfl, rfl⟩⟩

/-- A command that writes a register answers with what the register then holds. -/
theorem data_of_exec_destReg {i : Instr} {s t : State} {r : Response} {rd : Reg} (h : exec i s = .next t)
    (hr : t.rsp = some r) (hok : r.status = .ok) (hrd : destReg i = some rd) : r.data = t.q[rd] := by
  rcases exec_next_cases h with ⟨rd', v, hrd', rfl⟩ | ⟨_, hnone, -⟩ | ⟨rfl, -⟩ | ⟨rfl, -⟩ | ⟨_, _, _, -, -, rfl⟩ |
    ⟨rfl, -⟩
  · obtain rfl : rd' = rd := by simpa [hrd'] using hrd
    cases hr
    simp
  · simp [hnone] at hrd
  · cases hrd
  · cases hrd
  · cases hr
    cases hok
  · cases hrd

/-- The datum of a rule that answers and changes nothing else. -/
theorem data_of_exec_eq_respond {i : Instr} {s t : State} {r : Response} {d : Word}
    (hexec : exec i s = .next (s.respond .ok d)) (h : exec i s = .next t) (hr : t.rsp = some r) : r.data = d := by
  rw [hexec] at h
  cases h
  cases hr
  rfl

theorem data_of_exec_advance_or_draw {i : Instr} {s t : State} {r : Response} (h : exec i s = .next t)
    (hr : t.rsp = some r) (hok : r.status = .ok) (hi : i = .advance ∨ i = .draw) : r.data = 0x0000#16 := by
  rcases exec_next_cases h with ⟨_, _, hrd, -⟩ | ⟨_, -, hadvance, hdraw, -⟩ | ⟨-, rfl⟩ | ⟨-, -, rfl⟩ |
    ⟨_, _, _, -, -, rfl⟩ | ⟨-, -, rfl⟩
  · rcases hi with rfl | rfl <;> cases hrd
  · exact absurd hi (not_or.mpr ⟨hadvance, hdraw⟩)
  · cases hr
    rfl
  · cases hr
    rfl
  all_goals
    cases hr
    cases hok

/-- The floor of a value is its upper byte, sign-extended (R109, R125). -/
theorem truncData_fxFloor (a : Word) : truncData (fxFloor a) = (a.extractLsb' 8 8).signExtend 16 := by
  obtain ⟨lo, hi⟩ := fxFloor_bounds a
  have hbyte : (a.extractLsb' 8 8).toInt = fxFloor a := by
    rw [fxFloor_eq]
    simp only [BitVec.toInt_eq_toNat_cond, BitVec.extractLsb'_toNat, Nat.shiftRight_eq_div_pow]
    omega
  apply BitVec.eq_of_toInt_eq
  rw [BitVec.toInt_signExtend_of_le (by decide), hbyte]
  exact toInt_trunc16_of_fits (by omega) (by omega)

theorem fxIsInt_iff (a : Word) : fxIsInt a = true ↔ a.toNat % 256 = 0 := by
  simp [fxIsInt, ← BitVec.toNat_inj]

theorem boolData_fxIsInt (a : Word) :
    boolData (fxIsInt a) = if a.toNat % 256 = 0 then 0x0001#16 else 0x0000#16 := by
  simp only [boolData, fxIsInt_iff]

/-- The comparison's code in the signed order: equality of the patterns is what the strict relations leave (R111, R127). -/
theorem cmpData_fxCmp (a b : Word) :
    cmpData (fxCmp a b) =
      if a.toInt < b.toInt then 0xFFFF#16 else if a.toInt > b.toInt then 0x0001#16 else 0x0000#16 := by
  rcases lt_trichotomy a.toInt b.toInt with hlt | heq | hgt
  · simp [fxCmp, cmpData, hlt]
  · obtain rfl := BitVec.toInt_inj.mp heq
    simp [fxCmp, cmpData]
  · have hne : a ≠ b := by rintro rfl; exact lt_irrefl _ hgt
    simp [fxCmp, cmpData, hgt, hne, hgt.not_gt]

/-! ### Every accepted command is answered -/

/-- An accepted word's response, by R84's three outcomes: HALTED, FAULT, or OK with the rule of the decoded command run. -/
theorem acceptCommand_response {w : CmdWord} {s t : State} (h : acceptCommand w s = .next t) :
    ∃ r, t.rsp = some r ∧
      ((r.status = .halted ∧ s.halt = true ∧ r.data = t.cause.data) ∨
        (r.status = .fault ∧ s.halt = false ∧ t.halt = true ∧ r.data = t.cause.data) ∨
          (r.status = .ok ∧ s.halt = false ∧ t.halt = false ∧ ∃ i, decode w = .ok i ∧ exec i s = .next t)) := by
  rcases acceptCommand_next_cases h with ⟨hhalt, rfl⟩ | ⟨hrun, -, rfl⟩ | ⟨hrun, i, hi, hexec⟩
  · exact ⟨_, rfl, Or.inl ⟨rfl, hhalt, rfl⟩⟩
  · exact ⟨_, rfl, Or.inr (Or.inl ⟨rfl, hrun, rfl, rfl⟩)⟩
  · obtain ⟨r, hr, ⟨hok, hgoes⟩ | ⟨hfault, hhalts, hdata⟩⟩ := exec_response hrun hexec
    · exact ⟨r, hr, Or.inr (Or.inr ⟨hok, hrun, hgoes, i, hi, hexec⟩)⟩
    · exact ⟨r, hr, Or.inr (Or.inl ⟨hfault, hrun, hhalts, hdata⟩)⟩

/-- Settles O7: the status is that of the accepted word's outcome, and the rule of an OK command answers its row's data. -/
theorem everyAcceptedCommandHasItsResponse : Obligations.EveryAcceptedCommandHasItsResponse := by
  intro s t w rest hinputs hstep
  rw [step_of_command (step_next_cases hstep).1 hinputs] at hstep
  obtain ⟨r, hr, houtcome⟩ := acceptCommand_response hstep
  refine ⟨r, hr, ?_⟩
  rcases houtcome with ⟨hst, (hhalt : s.halt = true), hdata⟩ | ⟨hst, (hrun : s.halt = false), hhalts, hdata⟩ |
    ⟨hst, (hrun : s.halt = false), hgoes, i, hi, hexec⟩
  · simp [hst, hhalt, hdata]
  · simp [hst, hrun, hhalts, hdata]
  · refine ⟨by simp [hst, hrun], by simp [hst, hgoes], by simp [hst], fun _ j hj => ?_⟩
    obtain rfl : i = j := Except.ok.inj (hi.symm.trans hj)
    refine ⟨fun rd => data_of_exec_destReg hexec hr hst, ?_, ?_, ?_, ?_, data_of_exec_advance_or_draw hexec hr hst⟩
    · rintro ra rfl
      exact (data_of_exec_eq_respond rfl hexec hr).trans (truncData_fxFloor _)
    · rintro ra rfl
      exact (data_of_exec_eq_respond rfl hexec hr).trans (boolData_fxIsInt _)
    · rintro ra rb rfl
      exact (data_of_exec_eq_respond rfl hexec hr).trans (cmpData_fxCmp _ _)
    · rintro ra rfl
      exact data_of_exec_eq_respond rfl hexec hr

end Sys2Proof.Machine

/-! PROOFS. FixedPoint (spec/40_fixedpoint.md): the numbers of the commands' words (R71, R76), the pure functions as
operations of 16-bit and 32-bit words and as arithmetic on integers (R101 to R111, R130 to R133), and each command's next
state (R115 to R128, R131). -/

namespace Sys2Proof

/-! ### The number of a laid-out word -/

@[simp] theorem toNat_regBits (r : Reg) : (regBits r).toNat = r.val := rfl

theorem regLayout_z12 (o : Op) (rd ra rb : BitVec 4) : (regLayout o rd ra rb).extractLsb' 0 12 = 0x000#12 := by
  ext i hi
  simp [regLayout, Op.pattern]
  interval_cases i <;> simp

theorem immLayout_z4 (o : Op) (rd : BitVec 4) (imm : Word) : (immLayout o rd imm).extractLsb' 16 4 = 0x0#4 := by
  ext i hi
  simp [immLayout, Op.pattern]
  interval_cases i <;> simp

/-- A word's number is its opcode and register fields, each at its place, and the 16 bits below them. -/
theorem toNat_eq_fields (w : CmdWord) :
    w.toNat = (w.extractLsb' 24 8).toNat * 2 ^ 24 + (w.extractLsb' 20 4).toNat * 2 ^ 20 +
      (w.extractLsb' 16 4).toNat * 2 ^ 16 + (w.extractLsb' 0 16).toNat := by
  simp only [BitVec.extractLsb'_toNat, Nat.shiftRight_eq_div_pow]
  omega

/-- The 16 bits below, in the register layout. -/
theorem toNat_low_eq_fields (w : CmdWord) :
    (w.extractLsb' 0 16).toNat = (w.extractLsb' 12 4).toNat * 2 ^ 12 + (w.extractLsb' 0 12).toNat := by
  simp only [BitVec.extractLsb'_toNat, Nat.shiftRight_eq_div_pow]
  omega

@[simp] theorem toNat_regLayout (o : Op) (rd ra rb : BitVec 4) :
    (regLayout o rd ra rb).toNat =
      o.code.toNat * 2 ^ 24 + rd.toNat * 2 ^ 20 + ra.toNat * 2 ^ 16 + rb.toNat * 2 ^ 12 := by
  rw [toNat_eq_fields, toNat_low_eq_fields, regLayout_op, regLayout_rd, regLayout_ra, regLayout_rb, regLayout_z12]
  simp [Nat.add_assoc]

@[simp] theorem toNat_immLayout (o : Op) (rd : BitVec 4) (imm : Word) :
    (immLayout o rd imm).toNat = o.code.toNat * 2 ^ 24 + rd.toNat * 2 ^ 20 + imm.toNat := by
  rw [toNat_eq_fields, immLayout_op, immLayout_rd, immLayout_z4, immLayout_imm16]
  simp

end Sys2Proof

namespace Sys2Proof.Machine

/-- The decoding half is the round trip of every well-formed command, so a command's word is a matter of its number, which
the laws of the two layouts compute. -/
theorem encodedAs_of_toNat {i : Instr} {n : Nat} (hwf : i.wf = true)
    (h : (encode i).toNat = n := by simp [encode, Op.code]) : EncodedAs i n := by
  subst h
  exact ⟨rfl, decode_of_encode_eq hwf (by simp)⟩

theorem EncodedAs.encode_eq {i : Instr} {n : Nat} (h : EncodedAs i n) : encode i = BitVec.ofNat 32 n := by
  rw [← h.1]
  simp

/-- FINT's integer is written as its 8 low bits (R76 (b)). -/
theorem encodedAs_fint (rd : Reg) {n : Int} (lo : -128 ≤ n) (hi : n ≤ 127) :
    EncodedAs (.fint rd n) (0x02000000 + rd.val * 2 ^ 20 + (n % 256).toNat) := by
  have himm : ((BitVec.ofInt 8 n).setWidth 16).toNat = (n % 256).toNat := by
    rw [BitVec.toNat_setWidth, BitVec.toNat_ofInt]
    omega
  refine encodedAs_of_toNat (by simp [Instr.wf, lo, hi]) ?_
  rw [encode, toNat_immLayout, himm, toNat_regBits]
  simp [Op.code]

/-! ### The pure functions, on 16-bit words -/

/-- Narrowing the exact sum is the 16-bit addition (R104). -/
theorem fxAdd_eq_add (a b : Word) : fxAdd a b = a + b := by
  rw [fxAdd, trunc16, BitVec.ofInt_add, BitVec.ofInt_toInt, BitVec.ofInt_toInt]

/-- Narrowing the exact negative is the 16-bit negation (R106). -/
theorem fxNeg_eq_neg (a : Word) : fxNeg a = -a := by
  rw [fxNeg, trunc16, BitVec.ofInt_neg, BitVec.ofInt_toInt]

/-- Narrowing the exact difference is the 16-bit subtraction (R105). -/
theorem fxSub_eq_sub (a b : Word) : fxSub a b = a - b := by
  rw [fxSub, trunc16, Int.sub_eq_add_neg, BitVec.ofInt_add, BitVec.ofInt_neg, BitVec.ofInt_toInt, BitVec.ofInt_toInt,
    BitVec.sub_eq_add_neg]

theorem fxMul_comm (a b : Word) : fxMul a b = fxMul b a := by rw [fxMul, Int.mul_comm, fxMul]

@[simp] theorem toInt_fxOne : fxOne.toInt = 256 := rfl

theorem fxAdd_fxZero (a : Word) : fxAdd a fxZero = a := by
  rw [fxAdd_eq_add, fxZero, BitVec.add_zero]

theorem fxMul_fxOne (a : Word) : fxMul a fxOne = a := by
  rw [fxMul, asr8_eq, toInt_fxOne, Int.mul_ediv_cancel _ (by decide), trunc16_toInt]

theorem fxDiv_fxOne (a : Word) : fxDiv a fxOne = some a := by
  rw [fxDiv_of_ne_zero a (by decide), tdiv, toInt_fxOne, Int.mul_tdiv_cancel _ (by decide), trunc16_toInt]

/-- A value over itself is 1 (R131). -/
theorem fxDiv_self {a : Word} (h : a ≠ 0x0000#16) : fxDiv a a = some fxOne := by
  have hne : a.toInt ≠ 0 := BitVec.toInt_ne.mpr h
  rw [fxDiv_of_ne_zero a h, tdiv, Int.mul_tdiv_cancel_left _ hne]
  rfl

/-- The negation is exact at every value but the least (R106). -/
theorem toInt_fxNeg {a : Word} (h : a ≠ 0x8000#16) : (fxNeg a).toInt = -a.toInt := by
  have hne : a.toInt ≠ -32768 := BitVec.toInt_ne.mpr h
  have := word_toInt_lower a
  have := word_toInt_upper a
  exact toInt_trunc16_of_fits (by omega) (by omega)

/-- The fixed points of negation are the two solutions of `2 a = 0` modulo `2^16` (R122). -/
theorem fxNeg_eq_self_iff (a : Word) : fxNeg a = a ↔ a = 0x0000#16 ∨ a = 0x8000#16 := by
  rw [fxNeg_eq_neg]
  simp only [← BitVec.toNat_inj, BitVec.toNat_neg, BitVec.toNat_ofNat]
  omega

/-! ### The product and the quotient, in 32 bits -/

@[simp] theorem toInt_signExtend_32 (a : Word) : (a.signExtend 32).toInt = a.toInt :=
  BitVec.toInt_signExtend_of_le (by decide)

/-- The low half of a 32-bit word is its integer narrowed. -/
theorem setWidth_16_eq_trunc16 (x : BitVec 32) : x.setWidth 16 = trunc16 x.toInt :=
  (BitVec.signExtend_eq_setWidth_of_le x (by decide)).symm

/-- The 32-bit product never wraps (R107). -/
theorem toInt_mul_signExtend (a b : Word) :
    (a.signExtend 32 * b.signExtend 32).toInt = a.toInt * b.toInt := by
  have hlo : -(2 ^ 30) ≤ a.toInt * b.toInt := BitVec.le_toInt_mul_toInt
  have hhi : a.toInt * b.toInt ≤ 2 ^ 30 := BitVec.toInt_mul_toInt_le
  rw [BitVec.toInt_mul, toInt_signExtend_32, toInt_signExtend_32]
  exact Int.bmod_eq_of_le_mul_two (by omega) (by omega)

theorem fxMul_eq_sshiftRight (a b : Word) :
    fxMul a b = ((a.signExtend 32 * b.signExtend 32).sshiftRight 8).setWidth 16 := by
  rw [setWidth_16_eq_trunc16, BitVec.toInt_sshiftRight, toInt_mul_signExtend, Int.shiftRight_eq_div_pow]
  rfl

/-- The dividend shifted left by 8 fits 32 bits (R108). -/
theorem toInt_signExtend_shiftLeft (a : Word) : (a.signExtend 32 <<< 8).toInt = a.toInt * 256 := by
  have := word_toInt_lower a
  have := word_toInt_upper a
  have hscale : (BitVec.twoPow 32 8).toInt = 256 := rfl
  rw [← BitVec.mul_twoPow_eq_shiftLeft, BitVec.toInt_mul, toInt_signExtend_32, hscale]
  exact Int.bmod_eq_of_le_mul_two (by omega) (by omega)

/-- The 32-bit quotient never wraps, since it is no larger than its dividend (R108). -/
theorem toInt_sdiv_signExtend (a b : Word) :
    ((a.signExtend 32 <<< 8).sdiv (b.signExtend 32)).toInt = Int.tdiv (a.toInt * 256) b.toInt := by
  have hle := Int.natAbs_tdiv_le_natAbs (a.toInt * 256) b.toInt
  have := word_toInt_lower a
  have := word_toInt_upper a
  rw [BitVec.toInt_sdiv, toInt_signExtend_shiftLeft, toInt_signExtend_32]
  exact Int.bmod_eq_of_le_mul_two (by omega) (by omega)

theorem fxDiv_eq_sdiv (a : Word) {b : Word} (h : b ≠ 0x0000#16) :
    fxDiv a b = some (((a.signExtend 32 <<< 8).sdiv (b.signExtend 32)).setWidth 16) := by
  rw [fxDiv_of_ne_zero a h, setWidth_16_eq_trunc16, toInt_sdiv_signExtend]
  rfl

/-! ### The integer part and the fraction byte -/

theorem toInt_signExtend_upperByte (a : Word) :
    ((a.extractLsb' 8 8).signExtend 16 : Word).toInt = fxFloor a := by
  obtain ⟨lo, hi⟩ := fxFloor_bounds a
  rw [← truncData_fxFloor]
  exact toInt_trunc16_of_fits (by omega) (by omega)

/-- The floor is the signed upper byte (R109). -/
theorem fxFloor_eq_toInt_extractLsb' (a : Word) : fxFloor a = (a.extractLsb' 8 8).toInt := by
  rw [← toInt_signExtend_upperByte, BitVec.toInt_signExtend_of_le (by decide)]

/-- The fraction byte alone is a value in `[0, 256)`. -/
theorem toInt_fraction (a : Word) : ((a.extractLsb' 0 8).setWidth 16 : Word).toInt = a.toInt % 256 := by
  simp only [BitVec.toInt_eq_toNat_cond, BitVec.toNat_setWidth, BitVec.extractLsb'_toNat, Nat.shiftRight_zero]
  omega

theorem fxAdd_fxFloor_fraction (a : Word) :
    fxAdd (fxFromInt (fxFloor a)) ((a.extractLsb' 0 8).setWidth 16) = a := by
  obtain ⟨lo, hi⟩ := fxFloor_bounds a
  have hsum : fxFloor a * 256 + a.toInt % 256 = a.toInt := by
    rw [fxFloor_eq]
    omega
  rw [fxAdd, toInt_fxFromInt lo hi, toInt_fraction, hsum, trunc16_toInt]

/-! ### The FixedPoints of integers -/

/-- The integer's 8 bits above a zero fraction byte (R101). -/
theorem fxFromInt_eq_append {n : Int} (lo : -128 ≤ n) (hi : n ≤ 127) : fxFromInt n = BitVec.ofInt 8 n ++ 0x00#8 := by
  have hbyte : (BitVec.ofInt 8 n).toInt = n := BitVec.toInt_ofInt_eq_self (by decide) lo (by omega)
  apply BitVec.eq_of_toInt_eq
  rw [toInt_fxFromInt lo hi, BitVec.toInt_append_zero, hbyte]
  omega

theorem fxIsInt_fxFromInt {n : Int} (lo : -128 ≤ n) (hi : n ≤ 127) : fxIsInt (fxFromInt n) = true := by
  rw [fxFromInt_eq_append lo hi, fxIsInt, BitVec.extractLsb'_append_eq_right]
  rfl

theorem fxFloor_fxFromInt {n : Int} (lo : -128 ≤ n) (hi : n ≤ 127) : fxFloor (fxFromInt n) = n := by
  rw [fxFloor_eq, toInt_fxFromInt lo hi, Int.mul_ediv_cancel _ (by decide)]

theorem fxAdd_fxFromInt (m n : Int) : fxAdd (fxFromInt m) (fxFromInt n) = fxFromInt (m + n) := by
  simp only [fxAdd_eq_add, fxFromInt, Int.add_mul]
  exact (BitVec.ofInt_add ..).symm

theorem fxSub_fxFromInt (m n : Int) : fxSub (fxFromInt m) (fxFromInt n) = fxFromInt (m - n) := by
  rw [fxSub_eq_sub, BitVec.sub_eq_iff_eq_add, ← fxAdd_eq_add, fxAdd_fxFromInt, Int.sub_add_cancel]

/-- The product of two scaled integers carries the scale twice, and the shift takes one away (R107). -/
theorem fxMul_fxFromInt {m n : Int} (hm : -128 ≤ m) (hm' : m ≤ 127) (hn : -128 ≤ n) (hn' : n ≤ 127) :
    fxMul (fxFromInt m) (fxFromInt n) = fxFromInt (m * n) := by
  have hscale : m * 256 * (n * 256) = m * n * 256 * 256 := by ring
  rw [fxMul, toInt_fxFromInt hm hm', toInt_fxFromInt hn hn', hscale, asr8_eq,
    Int.mul_ediv_cancel _ (by decide), fxFromInt]

/-- The FixedPoint of an integer keeps 8 bits of it (R130). -/
theorem fxFromInt_bmod (k : Int) : fxFromInt (k.bmod 256) = fxFromInt k := by
  have hbits : k.bmod 256 % 256 = k % 256 := Int.bmod_emod
  apply trunc16_eq_of_emod
  omega

/-! ### The comparison -/

/-- Each answer stands for one of the three relations of the signed order (R111, R127). -/
theorem cmpData_fxCmp_cases (a b : Word) :
    (cmpData (fxCmp a b) = 0xFFFF#16 ∧ a.toInt < b.toInt ∧ a ≠ b) ∨ (cmpData (fxCmp a b) = 0x0000#16 ∧ a = b) ∨
      (cmpData (fxCmp a b) = 0x0001#16 ∧ b.toInt < a.toInt ∧ a ≠ b) := by
  rw [cmpData_fxCmp]
  rcases lt_trichotomy a.toInt b.toInt with hlt | heq | hgt
  · exact Or.inl ⟨if_pos hlt, hlt, fun h => hlt.ne (congrArg _ h)⟩
  · exact Or.inr (Or.inl ⟨by simp [heq], BitVec.toInt_inj.mp heq⟩)
  · exact Or.inr (Or.inr ⟨by simp [hgt, hgt.not_gt], hgt, fun h => hgt.ne' (congrArg _ h)⟩)

/-! ### The copy onto itself, and the division's two outcomes -/

/-- A copy onto itself changes the response only (R119). -/
theorem exec_fmov_self (r : Reg) (s : State) :
    exec (.fmov r r) s = .next { s with rsp := some { status := .ok, data := s.q[r] } } := by
  have hcopy := s.writeReg_readReg r
  calc exec (.fmov r r) s = .next ((s.writeReg r (s.readReg r)).respond .ok (s.readReg r)) := rfl
    _ = .next (s.respond .ok (s.readReg r)) := by rw [hcopy]

theorem exec_fdiv_of_some {rd ra rb : Reg} {s : State} {v : Word} (h : fxDiv s.q[ra] s.q[rb] = some v) :
    exec (.fdiv rd ra rb) s = .next (s.writeResult rd v) := by
  have hdiv : fxDiv (s.readReg ra) (s.readReg rb) = some v := h
  simp only [exec, execFdiv, hdiv]

theorem exec_fdiv_of_zero {rd ra rb : Reg} {s : State} (h : s.q[rb] = 0x0000#16) :
    exec (.fdiv rd ra rb) s = .next (s.raise .divzero (encode (.fdiv rd ra rb))) := by
  have hzero : s.readReg rb = 0x0000#16 := h
  simp only [exec, execFdiv, hzero, fxDiv_zero]

/-! ### The obligations: the arithmetic -/

/-- Settles O20, from where negation is exact and which words it fixes. -/
theorem fnegNegates : Obligations.FnegNegates := by
  intro rd ra s
  refine ⟨encodedAs_of_toNat rfl, fxNeg s.q[ra], rfl, rfl, toInt_fxNeg, fun hleast => ?_, fxNeg_eq_self_iff _⟩
  rw [hleast]
  rfl

/-- Settles O21, since the 32-bit product is exact, so its shift and its low half are those of the integer product. -/
theorem fmulTruncatesTheProduct : Obligations.FmulTruncatesTheProduct := by
  intro rd ra rb s
  refine ⟨encodedAs_of_toNat rfl, toInt_mul_signExtend _ _, ?_⟩
  rw [← fxMul_eq_sshiftRight]
  rfl

/-- Settles O22, by the two outcomes of the division; the 32-bit quotient is exact, so its low half is the narrowed
integer quotient. -/
theorem fdivDividesOrRaisesDivzero : Obligations.FdivDividesOrRaisesDivzero := by
  intro rd ra rb s
  have hword : EncodedAs (.fdiv rd ra rb) (0x14000000 + rd.val * 2 ^ 20 + ra.val * 2 ^ 16 + rb.val * 2 ^ 12) :=
    encodedAs_of_toNat rfl
  refine ⟨hword, fun hne => ⟨exec_fdiv_of_some (fxDiv_eq_sdiv _ hne), toInt_sdiv_signExtend _ _⟩, fun hzero => ?_⟩
  rw [exec_fdiv_of_zero hzero, hword.encode_eq]
  rfl

/-- Settles O25, by the three answers, each of which decides every relation. -/
theorem fcmpAnswersTheSignedOrder : Obligations.FcmpAnswersTheSignedOrder := by
  intro ra rb s
  refine ⟨encodedAs_of_toNat rfl, cmpData (fxCmp s.q[ra] s.q[rb]), rfl, ?_⟩
  generalize s.q[ra] = a
  generalize s.q[rb] = b
  rcases cmpData_fxCmp_cases a b with ⟨hd, hlt, hne⟩ | ⟨hd, rfl⟩ | ⟨hd, hgt, hne⟩
  · simp [hd, hlt, hne, hlt.le, hlt.not_gt]
  · simp [hd]
  · simp [hd, hgt, hne, hgt.le, hgt.not_gt]

/-- Settles O28: an identity of every pattern is one of the known identity, which gives it away. -/
theorem identityConstantsAreUnique : Obligations.IdentityConstantsAreUnique := by
  refine ⟨rfl, rfl, fxAdd_fxZero, fxMul_fxOne, fun z hz => ?_, fun o ho => ?_⟩
  · calc z = fxAdd fxZero z := by rw [fxAdd_eq_add, fxZero, BitVec.zero_add]
      _ = fxZero := hz fxZero
  · calc o = fxMul o fxOne := (fxMul_fxOne o).symm
      _ = fxMul fxOne o := fxMul_comm ..
      _ = fxOne := ho fxOne

/-- Settles O29, since the FixedPoint of an integer depends on the integer modulo 256 only. -/
theorem integerArithmeticIsPreserved : Obligations.IntegerArithmeticIsPreserved := by
  intro m n hm hm' hn hn'
  have hadd := fxAdd_fxFromInt m n
  have hsub := fxSub_fxFromInt m n
  have hmul := fxMul_fxFromInt hm hm' hn hn'
  simp only [fxFromInt_bmod]
  exact ⟨fun _ _ => hadd, fun _ _ => hsub, fun _ _ => hmul, hadd, hsub, hmul⟩

/-- Settles O31: the additive laws are those of 16-bit words, the others the lemmas above; the two failures are
evaluated. -/
theorem furtherIdentitiesHold : Obligations.FurtherIdentitiesHold := by
  refine ⟨?_, fxMul_comm, ?_, fxAdd_fxZero, fxMul_fxOne, fxDiv_fxOne, ?_, ?_, ?_, rfl, rfl, rfl, rfl,
    fxFloor_eq_toInt_extractLsb', fun a => (fxAdd_fxFloor_fraction a).symm⟩
  all_goals simp only [fxAdd_eq_add, fxSub_eq_sub, fxNeg_eq_neg]
  · exact BitVec.add_comm
  · exact BitVec.add_assoc
  · exact BitVec.sub_eq_add_neg
  · exact fun _ => BitVec.neg_neg
  · exact BitVec.sub_self

/-! ### The obligations: the other commands -/

/-- Settles O13: the pattern is written as it stands. -/
theorem frawWritesThePattern : Obligations.FrawWritesThePattern :=
  fun _ _ _ => ⟨encodedAs_of_toNat rfl, rfl⟩

/-- Settles O14: the scaled integer is its 8 bits above a zero byte. -/
theorem fintWritesTheScaledInteger : Obligations.FintWritesTheScaledInteger := by
  intro rd n s lo hi
  rw [← fxFromInt_eq_append lo hi]
  exact ⟨encodedAs_fint rd lo hi, rfl, toInt_fxFromInt lo hi⟩

/-- Settles O15: the constant is written. -/
theorem fzeroWritesZero : Obligations.FzeroWritesZero :=
  fun _ _ => ⟨encodedAs_of_toNat rfl, rfl⟩

/-- Settles O16: the constant is written. -/
theorem foneWritesOne : Obligations.FoneWritesOne :=
  fun _ _ => ⟨encodedAs_of_toNat rfl, rfl⟩

/-- Settles O17, with the write of a register's own value dropped where source and destination are one. -/
theorem fmovCopies : Obligations.FmovCopies :=
  ⟨fun _ _ _ => ⟨encodedAs_of_toNat rfl, rfl⟩, exec_fmov_self, encodedAs_of_toNat rfl rfl, exec_fmov_self 0⟩

/-- Settles O18, as the 16-bit addition, whose unsigned reading wraps at 65536. -/
theorem faddWrapsTheSum : Obligations.FaddWrapsTheSum := by
  intro rd ra rb s
  have hsum := fxAdd_eq_add s.q[ra] s.q[rb]
  refine ⟨encodedAs_of_toNat rfl, rfl, ?_⟩
  exact (congrArg BitVec.toNat hsum).trans (BitVec.toNat_add ..)

/-- Settles O19, as the 16-bit subtraction, whose unsigned reading wraps at 65536. -/
theorem fsubWrapsTheDifference : Obligations.FsubWrapsTheDifference := by
  intro rd ra rb s
  have hdiff := congrArg BitVec.toNat (fxSub_eq_sub s.q[ra] s.q[rb])
  refine ⟨encodedAs_of_toNat rfl, rfl, ?_⟩
  rw [fxSub, trunc16, BitVec.toNat_sub] at hdiff
  omega

/-- Settles O23: the datum reads as the floor, which is the integer quotient by 256. -/
theorem ftruncAnswersTheFloor : Obligations.FtruncAnswersTheFloor := by
  intro ra s
  refine ⟨encodedAs_of_toNat rfl, ?_, ?_⟩
  · rw [← truncData_fxFloor]
    rfl
  · rw [toInt_signExtend_upperByte, fxFloor_eq]
    omega

/-- Settles O24, by the fraction byte as the remainder by 256. -/
theorem fisintAnswersIntegrality : Obligations.FisintAnswersIntegrality := by
  intro ra s
  refine ⟨encodedAs_of_toNat rfl, ?_⟩
  rw [← boolData_fxIsInt]
  rfl

/-- Settles O26: the register read is the datum. -/
theorem fgetAnswersTheRegister : Obligations.FgetAnswersTheRegister :=
  fun _ _ => ⟨encodedAs_of_toNat rfl, rfl⟩

/-- Settles O27, with both operands read from the state before. -/
theorem sourcesAreReadBeforeTheDestination : Obligations.SourcesAreReadBeforeTheDestination := by
  intro r s
  refine ⟨?_, ?_, fun hne => exec_fdiv_of_some (fxDiv_self hne), fun hzero => ?_⟩
  · rw [Int.two_mul]
    rfl
  · rw [← fxNeg_eq_neg]
    rfl
  · exact ⟨_, exec_fdiv_of_zero hzero, rfl, rfl, rfl⟩

/-- Settles O30: the divisions are evaluated, and an integer's FixedPoint has a zero fraction byte and floors to it. -/
theorem divisionKeepsTheFraction : Obligations.DivisionKeepsTheFraction :=
  ⟨rfl, rfl, rfl, rfl, rfl, fun _ lo hi => ⟨fxIsInt_fxFromInt lo hi, fxFloor_fxFromInt lo hi⟩⟩

end Sys2Proof.Machine

/-! PROOFS. Integrator (spec/41_integrator.md): one axis of a tick said over integers (R141, R144, R145), what ADVANCE and
BGET write (R142, R143), what every command leaves alone, and the ball along a run (R146, R147). -/

namespace Sys2Proof

/-- The extents of a well-formed configuration as the integers a tick compares with. -/
theorem Config.extents_bounds_of_wf {c : Config} (h : c.wf = true) :
    (1 : Int) ≤ c.pfW ∧ (c.pfW : Int) ≤ 94 ∧ (1 : Int) ≤ c.pfH ∧ (c.pfH : Int) ≤ 94 := by
  obtain ⟨hW, hH, -⟩ := c.wf_iff.mp h
  obtain ⟨hW', hH'⟩ := Config.extents_le_of_wf h
  omega

end Sys2Proof

namespace Sys2Proof.Machine

/-! ### The sum of a tick -/

theorem toInt_fxAdd (a b : Word) : (fxAdd a b).toInt = (a.toInt + b.toInt).bmod 65536 := BitVec.toInt_ofInt _

theorem toInt_fxAdd_of_fits {a b : Word} (lo : -32768 ≤ a.toInt + b.toInt) (hi : a.toInt + b.toInt ≤ 32767) :
    (fxAdd a b).toInt = a.toInt + b.toInt := toInt_trunc16_of_fits lo hi

/-- From a position in the playfield the speed of reset carries the ball less than 3 pixels past an edge (R146). -/
theorem toInt_fxAdd_of_speed {p v : Word} {ext : Int} (hi : ext ≤ 94) (hp₀ : 0 ≤ p.toInt) (hp₁ : p.toInt < ext * 256)
    (hv : v = 0x02D8#16 ∨ v = 0xFD28#16) : (fxAdd p v).toInt = p.toInt + v.toInt := by
  have hspeed : v.toInt = 728 ∨ v.toInt = -728 := hv.imp (congrArg BitVec.toInt) (congrArg BitVec.toInt)
  exact toInt_fxAdd_of_fits (by omega) (by omega)

/-! ### One axis of a tick, edge by edge -/

section Axis

variable {p v : Word} {ext : Int}

theorem axisStep_of_low (lo : 1 ≤ ext) (hi : ext ≤ 94) (h : (fxAdd p v).toInt < 0) :
    axisStep p v ext = (fxZero, fxNeg v) := by
  rcases axisStep_cases p v lo hi with ⟨-, hstep⟩ | ⟨hhigh, -⟩ | ⟨hkept, -, -⟩
  · exact hstep
  · omega
  · omega

theorem axisStep_of_high (lo : 1 ≤ ext) (hi : ext ≤ 94) (h : ext * 256 ≤ (fxAdd p v).toInt) :
    axisStep p v ext = (fxFromInt (ext - 1), fxNeg v) := by
  rcases axisStep_cases p v lo hi with ⟨hlow, -⟩ | ⟨-, hstep⟩ | ⟨-, hkept, -⟩
  · omega
  · exact hstep
  · omega

theorem axisStep_of_inside (lo : 1 ≤ ext) (hi : ext ≤ 94) (h₀ : 0 ≤ (fxAdd p v).toInt)
    (h₁ : (fxAdd p v).toInt < ext * 256) : axisStep p v ext = (fxAdd p v, v) := by
  rcases axisStep_cases p v lo hi with ⟨hlow, -⟩ | ⟨hhigh, -⟩ | ⟨-, -, hstep⟩
  · omega
  · omega
  · exact hstep

end Axis

/-- One axis of a tick is R141 over integers. -/
theorem axisStep_axisRule (p v : Word) {ext : Nat} (lo : (1 : Int) ≤ ext) (hi : (ext : Int) ≤ 94) :
    AxisRule p v ext (axisStep p v ext).1 (axisStep p v ext).2 := by
  unfold AxisRule
  rw [← toInt_fxAdd, ← fxNeg_eq_neg]
  refine ⟨fun hlow => ?_, fun hhigh => ?_, fun h₀ h₁ => ?_⟩
  · rw [axisStep_of_low lo hi hlow]
    exact ⟨rfl, rfl⟩
  · rw [axisStep_of_high lo hi hhigh]
    exact ⟨toInt_fxFromInt (by omega) (by omega), rfl⟩
  · rw [axisStep_of_inside lo hi h₀ h₁]
    exact ⟨rfl, rfl⟩

/-! ### The flips of R140 -/

theorem Vec2.flipX_of_fixed (v : Vec2) (h : fxNeg v.x = v.x) : v.flipX = v := by rw [Vec2.flipX, h]

theorem Vec2.flipY_of_fixed (v : Vec2) (h : fxNeg v.y = v.y) : v.flipY = v := by rw [Vec2.flipY, h]

/-! ### The ball after ADVANCE -/

theorem ball_of_exec_advance {s t : State} (h : exec .advance s = .next t) : t.ball = s.ball.tick s.cfg := by
  rw [exec_advance] at h
  cases h
  rfl

/-- A tick flips neither velocity component, one, or both (R142). -/
theorem tick_velocity_cases {c : Config} (hwf : c.wf = true) (b : Ball) :
    (b.tick c).velocity = b.velocity ∨ (b.tick c).velocity = b.velocity.flipX ∨
      (b.tick c).velocity = b.velocity.flipY ∨ (b.tick c).velocity = b.velocity.flipX.flipY := by
  obtain ⟨hW, hW', hH, hH'⟩ := Config.extents_bounds_of_wf hwf
  have hvelocity : (b.tick c).velocity =
      ⟨(axisStep b.position.x b.velocity.x c.pfW).2, (axisStep b.position.y b.velocity.y c.pfH).2⟩ := rfl
  rw [hvelocity]
  rcases axisStep_velocity b.position.x b.velocity.x hW hW', axisStep_velocity b.position.y b.velocity.y hH hH' with
    ⟨hx | hx, hy | hy⟩
  · rw [hx, hy]
    exact Or.inl rfl
  · rw [hx, hy]
    exact Or.inr (Or.inr (Or.inl rfl))
  · rw [hx, hy]
    exact Or.inr (Or.inl rfl)
  · rw [hx, hy]
    exact Or.inr (Or.inr (Or.inr rfl))

/-! ### The obligations about one ADVANCE and one BGET -/

/-- Settles O33: the ball after ADVANCE is the tick, each of whose axes is `axisStep`. -/
theorem advanceMovesEachAxisByTheAxisRule : Obligations.AdvanceMovesEachAxisByTheAxisRule := by
  refine ⟨encodedAs_of_toNat rfl, fun s hwf => ⟨s.ball.tick s.cfg, exec_advance s, ?_⟩⟩
  obtain ⟨hW, hW', hH, hH'⟩ := Config.extents_bounds_of_wf hwf
  exact ⟨axisStep_axisRule _ _ hW hW', axisStep_axisRule _ _ hH hH'⟩

/-- Settles O34: a flip is the negation of its component, and each axis of a tick keeps its velocity or flips it. -/
theorem velocityChangesBySignFlipsOnly : Obligations.VelocityChangesBySignFlipsOnly := by
  refine ⟨fun v => ?_, fun s t hwf hexec => ?_⟩
  · have hneg := fxNeg_eq_self_iff
    exact ⟨fxNeg_eq_neg v.x, rfl, rfl, fxNeg_eq_neg v.y,
      fun h => v.flipX_of_fixed ((hneg v.x).mpr (Or.inr h)), fun h => v.flipX_of_fixed ((hneg v.x).mpr (Or.inl h)),
      fun h => v.flipY_of_fixed ((hneg v.y).mpr (Or.inr h)), fun h => v.flipY_of_fixed ((hneg v.y).mpr (Or.inl h))⟩
  · rw [ball_of_exec_advance hexec]
    exact tick_velocity_cases hwf s.ball

/-- Settles O35, since each axis of a tick ends inside its extent. -/
theorem tickEndsInThePlayfield : Obligations.TickEndsInThePlayfield := by
  intro s t hwf hexec
  obtain ⟨hW, hW', hH, hH'⟩ := Config.extents_bounds_of_wf hwf
  obtain ⟨hx₀, hx₁⟩ := axisStep_bounds s.ball.position.x s.ball.velocity.x hW hW'
  obtain ⟨hy₀, hy₁⟩ := axisStep_bounds s.ball.position.y s.ball.velocity.y hH hH'
  rw [ball_of_exec_advance hexec]
  exact ⟨hx₀, hx₁, hy₀, hy₁⟩

/-- Settles O36: the bounds keep both sums from wrapping, so the x axis meets its high edge and the y axis no edge. -/
theorem rightEdgeReflects : Obligations.RightEdgeReflects := by
  intro s t hwf hexec _ hedge hfits
  obtain ⟨hW, hW', hH, hH'⟩ := Config.extents_bounds_of_wf hwf
  have hsum := toInt_fxAdd_of_fits (by omega) hfits
  have hx := axisStep_of_high hW hW' (hsum.symm ▸ hedge)
  rw [ball_of_exec_advance hexec, ← fxNeg_eq_neg]
  refine ⟨congrArg Prod.fst hx, congrArg Prod.snd hx, fun hy₀ hy₁ => ?_⟩
  have hsum' := toInt_fxAdd_of_fits (a := s.ball.position.y) (b := s.ball.velocity.y) (by omega) (by omega)
  exact congrArg Prod.snd (axisStep_of_inside hH hH' (hsum'.symm ▸ hy₀) (hsum'.symm ▸ hy₁))

/-- Settles O39, from the ball's place in the playfield and the speed, both of the invariant. -/
theorem tickSumsDoNotWrapFromReset : Obligations.TickSumsDoNotWrapFromReset := by
  intro s hinv
  obtain ⟨-, hW, -, hH⟩ := Config.extents_bounds_of_wf hinv.cfgWf
  obtain ⟨hx₀, hx₁, hy₀, hy₁⟩ := hinv.ballInPlayfield
  obtain ⟨hvx, hvy⟩ := hinv.speedKept
  exact ⟨toInt_fxAdd_of_speed hW hx₀ hx₁ hvx, toInt_fxAdd_of_speed hH hy₀ hy₁ hvy⟩

/-- The selector stands in the two low bits of the word (R76 (c)). -/
theorem encodedAs_bget (rd : Reg) (sel : BallReg) :
    EncodedAs (.bget rd sel) (0x20000000 + (selBits sel).toNat + rd.val * 2 ^ 20) := by
  refine encodedAs_of_toNat rfl ?_
  rw [encode, toNat_immLayout, toNat_regBits, BitVec.toNat_setWidth_of_le (by decide)]
  change 0x20000000 + rd.val * 2 ^ 20 + (selBits sel).toNat = _
  exact Nat.add_right_comm ..

/-- Settles O32: the value of the selected ball register is written, selector by selector. -/
theorem bgetCopiesABallRegister : Obligations.BgetCopiesABallRegister :=
  fun rd _ =>
    ⟨encodedAs_bget rd .px, encodedAs_bget rd .py, encodedAs_bget rd .vx, encodedAs_bget rd .vy, rfl, rfl, rfl, rfl⟩

/-! ### What every command leaves alone -/

section Frame

variable {i : Instr} {s t : State}

/-- A command writes no register but its destination (R80). -/
theorem exec_keeps_reg (h : exec i s = .next t) {r : Reg} (hr : destReg i ≠ some r) : t.q[r] = s.q[r] := by
  rcases exec_next_cases h with ⟨rd, v, hrd, rfl⟩ | ⟨_, -, -, -, rfl⟩ | ⟨-, rfl⟩ | ⟨-, -, rfl⟩ |
    ⟨_, _, _, -, -, rfl⟩ | ⟨-, -, rfl⟩
  case inl =>
    have hne : rd.val ≠ r.val := fun heq => hr (hrd.trans (congrArg some (Fin.ext heq)))
    exact Vector.getElem_set_ne rd.isLt r.isLt hne
  all_goals rfl

theorem exec_keeps_cfg_and_sink (h : exec i s = .next t) :
    t.cfg = s.cfg ∧ t.fbRaddr = s.fbRaddr ∧ t.sinkReads = s.sinkReads := by
  rcases exec_next_cases h with ⟨_, _, -, rfl⟩ | ⟨_, -, -, -, rfl⟩ | ⟨-, rfl⟩ | ⟨-, -, rfl⟩ |
    ⟨_, _, _, -, -, rfl⟩ | ⟨-, -, rfl⟩
  all_goals exact ⟨rfl, rfl, rfl⟩

theorem exec_keeps_memRead (h : exec i s = .next t) (hi : i ≠ .draw) (a : Nat) : t.memRead a = s.memRead a := by
  obtain ⟨-, hresets⟩ := exec_keeps_inputs_and_resets h
  rcases exec_fb_cases h with hfb | ⟨hdraw, -⟩
  · exact State.memRead_congr hfb hresets a
  · exact absurd hdraw hi

/-- A command keeps the fault record, or it is FDIV or DRAW and does nothing but enter a fault (R185). -/
theorem exec_keeps_faultRecord_or_raises (h : exec i s = .next t) :
    (t.halt = s.halt ∧ t.cause = s.cause ∧ t.fcmd = s.fcmd) ∨
      ((∃ rd ra rb, i = .fdiv rd ra rb) ∨ i = .draw) ∧ ∃ c, t = s.raise c (encode i) := by
  rcases exec_next_cases h with ⟨_, _, -, rfl⟩ | ⟨_, -, -, -, rfl⟩ | ⟨-, rfl⟩ | ⟨-, -, rfl⟩ |
    ⟨rd, ra, rb, hdiv, -, rfl⟩ | ⟨hdraw, -, rfl⟩
  case inr.inr.inr.inr.inl => exact Or.inr ⟨Or.inl ⟨rd, ra, rb, hdiv⟩, _, rfl⟩
  case inr.inr.inr.inr.inr => exact Or.inr ⟨Or.inr hdraw, _, rfl⟩
  all_goals exact Or.inl ⟨rfl, rfl, rfl⟩

theorem exec_keeps_faultRecord (h : exec i s = .next t) (hdiv : ∀ rd ra rb, i ≠ .fdiv rd ra rb) (hdraw : i ≠ .draw) :
    t.halt = s.halt ∧ t.cause = s.cause ∧ t.fcmd = s.fcmd := by
  rcases exec_keeps_faultRecord_or_raises h with hkept | ⟨⟨rd, ra, rb, heq⟩ | heq, -⟩
  · exact hkept
  · exact absurd heq (hdiv rd ra rb)
  · exact absurd heq hdraw

theorem exec_raises_of_halts (h : exec i s = .next t) (hrun : s.halt = false) (hhalts : t.halt = true) :
    ∃ c, t = s.raise c (encode i) := by
  rcases exec_keeps_faultRecord_or_raises h with ⟨hkept, -⟩ | ⟨-, hraise⟩
  · exact absurd (hhalts.symm.trans (hkept.trans hrun)) (by decide)
  · exact hraise

end Frame

/-- Settles O48, field by field from the lemmas above. -/
theorem commandsLeaveTheRestAlone : Obligations.CommandsLeaveTheRestAlone := by
  intro i s t hexec
  obtain ⟨hinputs, hresets⟩ := exec_keeps_inputs_and_resets hexec
  obtain ⟨hcfg, hraddr, hreads⟩ := exec_keeps_cfg_and_sink hexec
  refine ⟨fun r => exec_keeps_reg hexec, exec_keeps_ball hexec, exec_keeps_memRead hexec, exec_keeps_faultRecord hexec,
    fun hrun hhalts => ?_, hcfg, hinputs, hraddr, hresets, hreads⟩
  obtain ⟨c, rfl⟩ := exec_raises_of_halts hexec hrun hhalts
  exact ⟨rfl, rfl, fun _ => rfl⟩

/-! ### The ball along a run -/

theorem acceptCommand_keeps_cfg {w : CmdWord} {s t : State} (h : acceptCommand w s = .next t) : t.cfg = s.cfg := by
  rcases acceptCommand_next_cases h with ⟨-, rfl⟩ | ⟨-, -, rfl⟩ | ⟨-, i, -, hexec⟩
  · rfl
  · rfl
  · exact (exec_keeps_cfg_and_sink hexec).1

theorem perform_keeps_cfg {e : Input} {s t : State} (h : perform e s = .next t) : t.cfg = s.cfg := by
  rcases perform_next_cases h with ⟨w, -, hacc⟩ | ⟨-, rfl⟩ | ⟨a, -, rfl⟩
  · exact acceptCommand_keeps_cfg hacc
  · rfl
  · rfl

/-- The ball after an input that is no reset, where that input leaves the block running. -/
def Ball.afterInput (c : Config) (e : Input) (b : Ball) : Ball := if e.isAdvance then b.tick c else b

/-- A word that leaves the block running was accepted by a running block, as a command whose rule ran (R84, R186). -/
theorem acceptCommand_of_running {w : CmdWord} {s t : State} (h : acceptCommand w s = .next t) (hrun : t.halt = false) :
    s.halt = false ∧ ∃ i, decode w = .ok i ∧ exec i s = .next t := by
  rcases acceptCommand_next_cases h with ⟨hhalt, rfl⟩ | ⟨-, -, rfl⟩ | hexec
  · exact absurd (hhalt.symm.trans hrun) (by decide)
  · cases hrun
  · exact hexec

theorem exec_decoded_ball {w : CmdWord} {i : Instr} {s t : State} (hi : decode w = .ok i) (h : exec i s = .next t) :
    t.ball = s.ball.afterInput s.cfg (.command w) := by
  by_cases hw : w = 0x21000000#32
  · subst hw
    obtain rfl : .advance = i := Except.ok.inj (((decode_eq_advance_iff _).mpr rfl).symm.trans hi)
    exact ball_of_exec_advance h
  · have hne : i ≠ .advance := fun heq => hw ((decode_eq_advance_iff w).mp (heq ▸ hi))
    rw [exec_keeps_ball h hne, Ball.afterInput, if_neg (by simpa [Input.isAdvance] using hw)]

/-- An input other than a reset that leaves the block running found it running, and ticks the ball if it is ADVANCE. -/
theorem perform_of_running {e : Input} {s t : State} (h : perform e s = .next t) (hreset : e.isReset = false)
    (hrun : t.halt = false) : s.halt = false ∧ t.ball = s.ball.afterInput s.cfg e := by
  rcases perform_next_cases h with ⟨w, rfl, hacc⟩ | ⟨rfl, -⟩ | ⟨a, rfl, rfl⟩
  · obtain ⟨hrun', i, hi, hexec⟩ := acceptCommand_of_running hacc hrun
    exact ⟨hrun', exec_decoded_ball hi hexec⟩
  · cases hreset
  · exact ⟨hrun, rfl⟩

theorem perform_of_step {e : Input} {rest : List Input} {s t : State} (h : step s = .next t)
    (hinputs : s.inputs = e :: rest) : perform e { s with inputs := rest } = .next t :=
  (step_of_input (step_next_cases h).1 hinputs).symm.trans h

theorem ticks_countP_cons (c : Config) (e : Input) (l : List Input) (b : Ball) :
    Ball.ticks c ((e :: l).countP Input.isAdvance) b =
      Ball.ticks c (l.countP Input.isAdvance) (b.afterInput c e) := by
  rw [List.countP_cons, Ball.afterInput]
  split
  · rfl
  · rfl

/-- A run without a reset that ends running was running from its start, since only a reset leaves the halted state; so
each of its ADVANCE words ticked the ball. -/
theorem run_of_running {l : List Input} {s t : State} (hinputs : s.inputs = l) (hnoReset : ∀ e ∈ l, e.isReset = false)
    (h : Host.Core.run Sys2Proof.core l.length s = .next t) (hrun : t.halt = false) :
    s.halt = false ∧ t.ball = Ball.ticks s.cfg (l.countP Input.isAdvance) s.ball := by
  induction l generalizing s with
  | nil =>
    cases h
    exact ⟨hrun, rfl⟩
  | cons e rest ih =>
    obtain ⟨hreset, hnoResetRest⟩ := List.forall_mem_cons.mp hnoReset
    obtain ⟨u, hstep, hrunRest⟩ := core_run_succ h
    have hperf := perform_of_step hstep hinputs
    obtain ⟨hrest, -⟩ := perform_keeps_inputs_and_resets hperf hreset
    obtain ⟨hrunU, hballRest⟩ := ih hrest hnoResetRest hrunRest
    obtain (hcfg : u.cfg = s.cfg) := perform_keeps_cfg hperf
    obtain ⟨(hrunS : s.halt = false), (hball : u.ball = s.ball.afterInput s.cfg e)⟩ :=
      perform_of_running hperf hreset hrunU
    refine ⟨hrunS, ?_⟩
    rw [hballRest, hcfg, hball, ticks_countP_cons]

/-- Settles O38, by induction on the inputs of the run. -/
theorem ballDependsOnTheNumberOfTicksOnly : Obligations.BallDependsOnTheNumberOfTicksOnly := by
  intro l s t _ hinputs hnoReset hruns hrun
  exact (run_of_running hinputs hnoReset hruns hrun).2

end Sys2Proof.Machine

/-! PROOFS. Rasterizer (spec/42_rasterizer.md): the border ring (R161) and the ball's pixel (R162), the white pixels of a
frame, DRAW's two outcomes (R163, R165), its byte writes in the order of R163, and the count of white bytes (R164). -/

namespace Sys2Proof.Machine

/-! ### The border ring -/

theorem mem_displayPixels {x y : Nat} : (x, y) ∈ displayPixels ↔ x < 96 ∧ y < 96 := by
  simp [displayPixels, and_comm]

theorem displayPixels_nodup : displayPixels.Nodup := by
  have hswap : displayPixels = (List.product (List.range displayH) (List.range displayW)).map Prod.swap := by
    simp only [displayPixels, List.product, List.map_flatMap, List.map_map]
    rfl
  rw [hswap]
  exact (List.nodup_range.product List.nodup_range).map Prod.swap_injective

/-- A well-formed configuration keeps the border inside the display (R7). -/
theorem onBorder_in_display {c : Config} (hwf : c.wf = true) {x y : Nat} (h : OnBorder c x y) : x < 96 ∧ y < 96 := by
  obtain ⟨-, -, -, -, hright, hbottom⟩ := c.wf_iff.mp hwf
  rw [OnBorder] at h
  omega

/-- The border is what surrounds the interior: no pixel is both. -/
theorem not_onBorder_of_interior {c : Config} {x y : Nat} (hleft : c.pfLeft ≤ x) (hright : x < c.pfLeft + c.pfW)
    (htop : c.pfTop ≤ y) (hbottom : y < c.pfTop + c.pfH) : ¬OnBorder c x y := by
  rw [OnBorder]
  omega

theorem mem_ring {c : Config} (hwf : c.wf = true) {x y : Nat} : (x, y) ∈ ring c ↔ OnBorder c x y := by
  rw [ring, List.mem_filter, mem_displayPixels, inRing_iff_onBorder hwf]
  exact and_iff_right_of_imp (onBorder_in_display hwf)

theorem ring_nodup (c : Config) : (ring c).Nodup := displayPixels_nodup.filter _

/-- The playfield rectangle, with a margin of `k` pixels on every side. -/
def playfieldWithMargin (c : Config) (k : Nat) : Finset (Nat × Nat) :=
  Finset.Ico (c.pfLeft - k) (c.pfLeft + c.pfW + k) ×ˢ Finset.Ico (c.pfTop - k) (c.pfTop + c.pfH + k)

/-- The ring is the playfield with a margin of one pixel, less the playfield (R161). -/
theorem ring_toFinset {c : Config} (hwf : c.wf = true) :
    (ring c).toFinset = playfieldWithMargin c 1 \ playfieldWithMargin c 0 := by
  obtain ⟨-, -, hleft, htop, -, -⟩ := c.wf_iff.mp hwf
  ext ⟨x, y⟩
  rw [List.mem_toFinset, mem_ring hwf, OnBorder]
  simp only [playfieldWithMargin, Finset.mem_sdiff, Finset.mem_product, Finset.mem_Ico]
  omega

theorem card_playfieldWithMargin {c : Config} {k : Nat} (hleft : k ≤ c.pfLeft) (htop : k ≤ c.pfTop) :
    (playfieldWithMargin c k).card = (c.pfW + 2 * k) * (c.pfH + 2 * k) := by
  rw [playfieldWithMargin, Finset.card_product, Nat.card_Ico, Nat.card_Ico]
  congr 1 <;> omega

theorem ring_length {c : Config} (hwf : c.wf = true) : (ring c).length = 2 * (c.pfW + 2) + 2 * c.pfH := by
  obtain ⟨-, -, hleft, htop, -, -⟩ := c.wf_iff.mp hwf
  have hsub : playfieldWithMargin c 0 ⊆ playfieldWithMargin c 1 :=
    Finset.product_subset_product (Finset.Ico_subset_Ico (by omega) (by omega))
      (Finset.Ico_subset_Ico (by omega) (by omega))
  have harea : (c.pfW + 2 * 1) * (c.pfH + 2 * 1) =
      2 * (c.pfW + 2) + 2 * c.pfH + (c.pfW + 2 * 0) * (c.pfH + 2 * 0) := by ring
  rw [← List.toFinset_card_of_nodup (ring_nodup c), ring_toFinset hwf, Finset.card_sdiff_of_subset hsub,
    card_playfieldWithMargin hleft htop, card_playfieldWithMargin (Nat.zero_le _) (Nat.zero_le _), harea,
    Nat.add_sub_cancel]

/-- Settles O44: the ring is the border of two rectangles, and its length the difference of their areas. -/
theorem borderRingIsOnePixelAround : Obligations.BorderRingIsOnePixelAround := by
  intro c hwf
  refine ⟨fun x y => mem_ring hwf, ring_length hwf, fun ⟨x, y⟩ hp => ?_, fun ⟨x, y⟩ hp hinterior => ?_⟩
  · obtain ⟨hx, hy⟩ := onBorder_in_display hwf ((mem_ring hwf).mp hp)
    exact ⟨Nat.le_of_lt_succ hx, Nat.le_of_lt_succ hy⟩
  · obtain ⟨hleft, hright, htop, hbottom⟩ := hinterior
    exact not_onBorder_of_interior hleft hright htop hbottom ((mem_ring hwf).mp hp)

/-! ### The ball's pixel -/

section Ball

variable {c : Config} {b : Ball} {x y : Nat}

theorem onBall_interior (hfloor : FloorInPlayfield c b) (h : OnBall c b x y) :
    c.pfLeft ≤ x ∧ x < c.pfLeft + c.pfW ∧ c.pfTop ≤ y ∧ y < c.pfTop + c.pfH := by
  obtain ⟨hi₀, hi₁, hj₀, hj₁⟩ := hfloor
  obtain ⟨hx, hy⟩ := h
  omega

theorem onBall_not_onBorder (hfloor : FloorInPlayfield c b) (h : OnBall c b x y) : ¬OnBorder c x y := by
  obtain ⟨hleft, hright, htop, hbottom⟩ := onBall_interior hfloor h
  exact not_onBorder_of_interior hleft hright htop hbottom

theorem onBall_in_display (hwf : c.wf = true) (hfloor : FloorInPlayfield c b) (h : OnBall c b x y) :
    x < 96 ∧ y < 96 := by
  obtain ⟨-, -, -, -, hright, hbottom⟩ := c.wf_iff.mp hwf
  obtain ⟨-, hx, -, hy⟩ := onBall_interior hfloor h
  omega

/-- The ball's display pixel as DRAW's last two writes address it (R162, R163). -/
def ballPixel (c : Config) (b : Ball) : Nat × Nat :=
  ((c.pfLeft + fxFloor b.position.x).toNat, (c.pfTop + fxFloor b.position.y).toNat)

theorem eq_ballPixel_iff_onBall (hfloor : FloorInPlayfield c b) : (x, y) = ballPixel c b ↔ OnBall c b x y := by
  obtain ⟨hi₀, -, hj₀, -⟩ := hfloor
  rw [ballPixel, Prod.mk.injEq, fxFloor_eq, fxFloor_eq, OnBall]
  omega

end Ball

/-- Settles O45: the ball invariant bounds the floors, and so puts the ball's pixel in the interior. -/
theorem ballPixelIsInTheInterior : Obligations.BallPixelIsInTheInterior := by
  intro s _ hball
  have hfloor := hball.floorInPlayfield
  refine ⟨hfloor, fun x y h => ?_⟩
  obtain ⟨hleft, hright, htop, hbottom⟩ := onBall_interior hfloor h
  exact ⟨hleft, hright, htop, hbottom, onBall_not_onBorder hfloor h⟩

/-! ### DRAW outside the playfield, and the bytes of a frame -/

theorem encodedAs_draw : EncodedAs .draw 0x22000000 := encodedAs_of_toNat rfl

theorem exec_draw_of_not_floorInPlayfield {s : State} (h : ¬FloorInPlayfield s.cfg s.ball) :
    exec .draw s = .next (s.raise .range (encode .draw)) :=
  if_neg (mt (inPlayfield_iff s.cfg s.ball).mp h)

/-- Settles O42, by DRAW's other branch; the ball invariant excludes it. -/
theorem drawOutsideThePlayfieldRaisesRange : Obligations.DrawOutsideThePlayfieldRaisesRange := by
  refine ⟨fun s h => ?_, fun s hinv => hinv.ballInPlayfield.floorInPlayfield⟩
  rw [exec_draw_of_not_floorInPlayfield h, encodedAs_draw.encode_eq]
  rfl

/-- What a drawn frame holds at an address, by the pixel that owns it (R164). -/
theorem frameByte_eq_ite {c : Config} (hwf : c.wf = true) (b : Ball) (a : Nat) :
    frameByte c (fxFloor b.position.x) (fxFloor b.position.y) a =
      if OnBorder c (columnOf a) (rowOf a) ∨ OnBall c b (columnOf a) (rowOf a) then 0xFF#8 else 0x00#8 := by
  simp only [frameByte, Bool.or_eq_true, inRing_iff_onBorder hwf, isBallPixel_iff_onBall]

/-- Settles O40: DRAW stores the frame, which lists every address of `FB` with its final byte. -/
theorem drawWritesTheWholeFrame : Obligations.DrawWritesTheWholeFrame := by
  refine ⟨encodedAs_draw, fun s hwf hfloor => ⟨_, exec_draw_of_floorInPlayfield hfloor, fun a => ?_⟩⟩
  rw [frame_read, frameByte_eq_ite hwf]
  rfl

/-! ### The white pixels of a frame -/

/-- The pixels a frame shows white: the ring's and the ball's (R164). -/
def whitePixels (c : Config) (b : Ball) : Finset (Nat × Nat) := insert (ballPixel c b) (ring c).toFinset

section White

variable {c : Config} {b : Ball}

theorem mem_whitePixels (hwf : c.wf = true) (hfloor : FloorInPlayfield c b) {x y : Nat} :
    (x, y) ∈ whitePixels c b ↔ OnBorder c x y ∨ OnBall c b x y := by
  rw [whitePixels, Finset.mem_insert, List.mem_toFinset, mem_ring hwf, eq_ballPixel_iff_onBall hfloor, or_comm]

theorem whitePixels_in_display (hwf : c.wf = true) (hfloor : FloorInPlayfield c b) :
    ∀ p ∈ whitePixels c b, p.1 < 96 ∧ p.2 < 96 := by
  intro p hp
  rcases (mem_whitePixels hwf hfloor).mp hp with h | h
  · exact onBorder_in_display hwf h
  · exact onBall_in_display hwf hfloor h

/-- The ball's pixel is one more than the ring's. -/
theorem card_whitePixels (hwf : c.wf = true) (hfloor : FloorInPlayfield c b) :
    (whitePixels c b).card = 2 * (c.pfW + 2) + 2 * c.pfH + 1 := by
  have hball : ballPixel c b ∉ (ring c).toFinset := fun h =>
    onBall_not_onBorder hfloor ((eq_ballPixel_iff_onBall hfloor).mp rfl) ((mem_ring hwf).mp (List.mem_toFinset.mp h))
  rw [whitePixels, Finset.card_insert_of_notMem hball, List.toFinset_card_of_nodup (ring_nodup c), ring_length hwf]

theorem frameByte_eq_ite_whitePixels (hwf : c.wf = true) (hfloor : FloorInPlayfield c b) (a : Nat) :
    frameByte c (fxFloor b.position.x) (fxFloor b.position.y) a =
      if (columnOf a, rowOf a) ∈ whitePixels c b then 0xFF#8 else 0x00#8 := by
  simp only [frameByte_eq_ite hwf, mem_whitePixels hwf hfloor]

theorem frameByte_eq_white_iff (hwf : c.wf = true) (hfloor : FloorInPlayfield c b) (a : Nat) :
    frameByte c (fxFloor b.position.x) (fxFloor b.position.y) a = 0xFF#8 ↔
      (columnOf a, rowOf a) ∈ whitePixels c b := by
  simp [frameByte_eq_ite_whitePixels hwf hfloor]

end White

/-! ### The byte writes of DRAW, in their order -/

/-- After writes of one value an address holds that value where one of them went, and else what it held before. -/
theorem foldl_writes_of_one_value {w : Byte} (a : Nat) : ∀ {ws : List Host.Cell} (v : Option Byte), (∀ c ∈ ws, c.2 = w) →
    ws.foldl (fun v c => if c.1 = a then some c.2 else v) v = if a ∈ ws.map Prod.fst then some w else v
  | [], _, _ => rfl
  | c :: cs, v, h => by
    obtain ⟨hc, hcs⟩ := List.forall_mem_cons.mp h
    rw [List.foldl_cons, foldl_writes_of_one_value a _ hcs, List.map_cons, hc]
    by_cases hmem : a ∈ cs.map Prod.fst
    · rw [if_pos hmem, if_pos (List.mem_cons_of_mem _ hmem)]
    · simp only [List.mem_cons, hmem, or_false, if_false, eq_comm]

/-- An address lies below the end of `FB` exactly when its row is a display row. -/
theorem rowOf_lt_iff (a : Nat) : rowOf a < 96 ↔ a < fbBytes := by
  rw [rowOf, fbBytes]
  omega

/-- The two writes of a white pixel go to the two addresses whose pixel it is. -/
theorem mem_keys_whitePixel {a x y : Nat} (hx : x < 96) :
    a ∈ (whitePixel x y).map Prod.fst ↔ (columnOf a, rowOf a) = (x, y) := by
  simp only [whitePixel, List.map_cons, List.map_nil, List.mem_cons, List.not_mem_nil, or_false, pixAddr_eq, columnOf,
    rowOf, Prod.mk.injEq]
  omega

/-- The byte writes of a frame's white pixels: the second and the third part of R163's order. -/
def whiteWrites (c : Config) (b : Ball) : List Host.Cell :=
  (ring c).flatMap (fun p => whitePixel p.1 p.2) ++ whitePixel (ballPixel c b).1 (ballPixel c b).2

theorem drawWrites_eq (c : Config) (b : Ball) :
    drawWrites c (fxFloor b.position.x) (fxFloor b.position.y) =
      (List.range fbBytes).map (fun a => (a, 0x00#8)) ++ whiteWrites c b := List.append_assoc ..

theorem snd_of_mem_whitePixel {x y : Nat} : ∀ d ∈ whitePixel x y, d.2 = 0xFF#8 := by
  simp [whitePixel]

theorem snd_of_mem_whiteWrites (c : Config) (b : Ball) : ∀ d ∈ whiteWrites c b, d.2 = 0xFF#8 := by
  intro d hd
  rcases List.mem_append.mp hd with hring | hball
  · obtain ⟨p, -, hp⟩ := List.mem_flatMap.mp hring
    exact snd_of_mem_whitePixel d hp
  · exact snd_of_mem_whitePixel d hball

section Writes

variable {c : Config} {b : Ball} (hwf : c.wf = true) (hfloor : FloorInPlayfield c b)
include hwf hfloor

/-- The white writes go to the addresses whose pixel is white. -/
theorem mem_keys_whiteWrites (a : Nat) :
    a ∈ (whiteWrites c b).map Prod.fst ↔ (columnOf a, rowOf a) ∈ whitePixels c b := by
  have hring : a ∈ ((ring c).flatMap fun p => whitePixel p.1 p.2).map Prod.fst ↔ (columnOf a, rowOf a) ∈ ring c := by
    rw [List.map_flatMap, List.mem_flatMap]
    constructor
    · rintro ⟨p, hp, ha⟩
      have hx := (onBorder_in_display hwf ((mem_ring hwf).mp hp)).1
      exact (mem_keys_whitePixel hx).mp ha ▸ hp
    · intro hp
      have hx := (onBorder_in_display hwf ((mem_ring hwf).mp hp)).1
      exact ⟨_, hp, (mem_keys_whitePixel hx).mpr rfl⟩
  have hball : (ballPixel c b).1 < 96 := (onBall_in_display hwf hfloor ((eq_ballPixel_iff_onBall hfloor).mp rfl)).1
  rw [whiteWrites, List.map_append, List.mem_append, hring, mem_keys_whitePixel hball, whitePixels, Finset.mem_insert,
    List.mem_toFinset, or_comm]

/-- Every write of DRAW goes to an address of `FB`. -/
theorem drawWrites_in_fb :
    ∀ d ∈ drawWrites c (fxFloor b.position.x) (fxFloor b.position.y), d.1 < fbBytes := by
  intro d hd
  rw [drawWrites_eq] at hd
  rcases List.mem_append.mp hd with hzero | hwhite
  · obtain ⟨a, ha, rfl⟩ := List.mem_map.mp hzero
    exact List.mem_range.mp ha
  · have hpixel := (mem_keys_whiteWrites hwf hfloor d.1).mp (List.mem_map_of_mem hwhite)
    exact (rowOf_lt_iff d.1).mp (whitePixels_in_display hwf hfloor _ hpixel).2

/-- What the writes leave at an address, over what it held before: white pixels' bytes are white, all others zeroed. -/
theorem foldl_drawWrites (a : Nat) (v : Option Byte) :
    (drawWrites c (fxFloor b.position.x) (fxFloor b.position.y)).foldl
        (fun v d => if d.1 = a then some d.2 else v) v =
      if (columnOf a, rowOf a) ∈ whitePixels c b then some 0xFF#8 else if a < fbBytes then some 0x00#8 else v := by
  rw [drawWrites_eq, List.foldl_append, foldl_writes_of_one_value a _ (snd_of_mem_whiteWrites c b),
    foldl_writes_of_one_value a _ (snd_of_mem_pairs _ _), map_fst_pairs]
  simp only [mem_keys_whiteWrites hwf hfloor, List.mem_range]

/-- Over canonical contents the writes leave the frame, by reading both at every address. -/
theorem writeAll_drawWrites {m : Memory} (hm : m.wf = true) :
    m.writeAll (drawWrites c (fxFloor b.position.x) (fxFloor b.position.y)) =
      some (frame c (fxFloor b.position.x) (fxFloor b.position.y)) := by
  obtain ⟨m', hwrites, hread⟩ := Memory.writeAll_total _ m (drawWrites_in_fb hwf hfloor)
  refine hwrites.trans (congrArg some ?_)
  refine Memory.ext_of_read (Memory.wf_writeAll hm hwrites) (frame_wf _ _ _) fun a => ?_
  rw [hread, foldl_drawWrites hwf hfloor, frame_read, frameByte_eq_ite_whitePixels hwf hfloor]
  by_cases hinside : a < fbBytes
  · simp only [hinside, if_true]
    split <;> rfl
  · have hblack : (columnOf a, rowOf a) ∉ whitePixels c b := fun h =>
      hinside ((rowOf_lt_iff a).mp (whitePixels_in_display hwf hfloor _ h).2)
    rw [if_neg hblack, if_neg hinside, if_neg hinside]
    exact findByte_outside (Nat.le_of_not_lt hinside) hm

end Writes

/-- Settles O43: each address holds the last byte written there, which is the frame's. -/
theorem frameIsTheSequenceOfWrites : Obligations.FrameIsTheSequenceOfWrites := by
  intro s t hwf hfb hfloor hexec
  rw [fb_of_exec_draw hfloor hexec]
  exact writeAll_drawWrites hwf hfloor hfb

/-! ### The number of white bytes -/

/-- Display pixels own two bytes of `FB` each (R51, R52): an address is a pixel and one of the two places in it. -/
theorem count_addresses_of_pixels (P : Finset (Nat × Nat)) (hP : ∀ p ∈ P, p.1 < 96 ∧ p.2 < 96) :
    Nat.count (fun a => (columnOf a, rowOf a) ∈ P) fbBytes = P.card * 2 := by
  rw [Nat.count_eq_card_filter_range, ← Finset.card_range 2, ← Finset.card_product]
  refine Finset.card_nbij' (fun a => ((columnOf a, rowOf a), a % 2)) (fun q => pixAddr q.1.1 q.1.2 + q.2) ?_ ?_ ?_ ?_
  · intro a ha
    exact Finset.mem_product.mpr ⟨(Finset.mem_filter.mp ha).2, Finset.mem_range.mpr (Nat.mod_lt a (by decide))⟩
  · rintro ⟨⟨x, y⟩, k⟩ hq
    obtain ⟨hp, hk⟩ := Finset.mem_product.mp hq
    obtain ⟨hx, hy⟩ : x < 96 ∧ y < 96 := hP _ hp
    have hk : k < 2 := Finset.mem_range.mp hk
    have hlt := pixAddr_add_one_lt_fbBytes hx hy
    have haddr : pixAddr x y + k < fbBytes := by omega
    refine Finset.mem_filter.mpr ⟨Finset.mem_range.mpr haddr, ?_⟩
    rw [columnOf_pixAddr_add y hx hk, rowOf_pixAddr_add y hx hk]
    exact hp
  · intro a _
    simp only [pixAddr_eq, columnOf, rowOf]
    omega
  · rintro ⟨⟨x, y⟩, k⟩ hq
    obtain ⟨hp, hk⟩ := Finset.mem_product.mp hq
    have hx : x < 96 := (hP _ hp).1
    have hk : k < 2 := Finset.mem_range.mp hk
    have hplace : (pixAddr x y + k) % 2 = k := by
      rw [pixAddr_eq]
      omega
    exact Prod.ext (Prod.ext (columnOf_pixAddr_add y hx hk) (rowOf_pixAddr_add y hx hk)) hplace

/-- The bytes a frame lists, counted by address. -/
theorem countP_frame_cells (c : Config) (bi bj : Int) (v : Byte) :
    (frame c bi bj).cells.countP (fun d => d.2 == v) = Nat.count (fun a => frameByte c bi bj a = v) fbBytes := by
  have hcells : (frame c bi bj).cells.countP (fun d => d.2 == v) =
      (frame c bi bj).cells.countP ((fun a => decide (frameByte c bi bj a = v)) ∘ Prod.fst) :=
    List.countP_congr fun d hd => by simp [frame_cell c bi bj d hd]
  rw [hcells, ← List.countP_map, frame_keys, Nat.count]

/-- Settles O41: a frame's white bytes are two for each of its white pixels. -/
theorem frameHoldsItsNumberOfWhiteBytes : Obligations.FrameHoldsItsNumberOfWhiteBytes := by
  intro s t hwf hfloor hexec
  rw [fb_of_exec_draw hfloor hexec, countP_frame_cells]
  simp only [frameByte_eq_white_iff hwf hfloor]
  rw [count_addresses_of_pixels _ (whitePixels_in_display hwf hfloor), card_whitePixels hwf hfloor]
  ring

end Sys2Proof.Machine

/-! PROOFS. Exceptions (spec/60_exceptions.md): the conditions under which each fault is entered (R180), that an accepted
word answers OK or enters one of them and does nothing else (R185, R188, R189), and that the halted state is left by a
reset only (R186, R187). -/

namespace Sys2Proof.Machine

/-! ### The two outcomes of an accepted word -/

/-- The condition of each fault, for a command word met by a running block (R180). -/
def FaultCondition (s : State) (w : CmdWord) (c : Cause) : Prop :=
  (c = .illegal ∧ ∀ i, decode w ≠ .ok i) ∨
    (c = .divzero ∧ ∃ rd ra rb : Reg, decode w = .ok (.fdiv rd ra rb) ∧ s.q[rb] = 0x0000#16) ∨
      (c = .range ∧ decode w = .ok .draw ∧ ¬FloorInPlayfield s.cfg s.ball)

theorem FaultCondition.cause_ne_none {s : State} {w : CmdWord} {c : Cause} (h : FaultCondition s w c) : c ≠ .none := by
  rcases h with ⟨rfl, -⟩ | ⟨rfl, -⟩ | ⟨rfl, -⟩
  all_goals decide

/-- The fault record stays and the response is OK (R79, R189). -/
def CompletesOk (s t : State) : Prop :=
  t.halt = s.halt ∧ t.cause = s.cause ∧ t.fcmd = s.fcmd ∧ ∃ d, t.rsp = some { status := .ok, data := d }

theorem completesOk_respond (s : State) (d : Word) : CompletesOk s (s.respond .ok d) := ⟨rfl, rfl, rfl, d, rfl⟩

/-- The rule of a decoded word completes, or it is FDIV by zero or DRAW outside the playfield and enters its fault. -/
theorem exec_completesOk_or_raises {w : CmdWord} {i : Instr} {s t : State} (hi : decode w = .ok i)
    (h : exec i s = .next t) : CompletesOk s t ∨ ∃ c, FaultCondition s w c ∧ t = s.raise c w := by
  obtain ⟨-, (hword : encode i = w)⟩ := decodedWordIsTheCommandsOnlyWord w i hi
  rcases exec_next_cases h with ⟨rd, v, -, rfl⟩ | ⟨d, -, -, -, rfl⟩ | ⟨-, rfl⟩ | ⟨-, -, rfl⟩ |
    ⟨rd, ra, rb, rfl, hzero, rfl⟩ | ⟨rfl, hout, rfl⟩
  · exact Or.inl (completesOk_respond (s.writeReg rd v) v)
  · exact Or.inl (completesOk_respond s d)
  · exact Or.inl (completesOk_respond { s with ball := _ } _)
  · exact Or.inl (completesOk_respond { s with fb := _ } _)
  · exact Or.inr ⟨.divzero, Or.inr (Or.inl ⟨rfl, rd, ra, rb, hi, hzero⟩), by rw [hword]⟩
  · have hfloor : ¬FloorInPlayfield s.cfg s.ball := fun hin => by
      simp [(inPlayfield_iff s.cfg s.ball).mpr hin] at hout
    exact Or.inr ⟨.range, Or.inr (Or.inr ⟨rfl, hi, hfloor⟩), by rw [hword]⟩

/-- A running block completes an accepted word, or enters the fault whose condition holds and does nothing else. -/
theorem acceptCommand_completesOk_or_raises {w : CmdWord} {s t : State} (hrun : s.halt = false)
    (h : acceptCommand w s = .next t) : CompletesOk s t ∨ ∃ c, FaultCondition s w c ∧ t = s.raise c w := by
  rcases acceptCommand_next_cases h with ⟨hhalt, -⟩ | ⟨-, ⟨err, herr⟩, rfl⟩ | ⟨-, i, hi, hexec⟩
  · exact absurd (hhalt.symm.trans hrun) (by decide)
  · exact Or.inr ⟨.illegal, Or.inl ⟨rfl, fun i hi => by cases herr.symm.trans hi⟩, rfl⟩
  · exact exec_completesOk_or_raises hi hexec

/-- An input that halts a running block is a command word whose fault condition holds. -/
theorem perform_raises_of_halts {e : Input} {s t : State} (h : perform e s = .next t) (hrun : s.halt = false)
    (hhalts : t.halt = true) : ∃ w c, e = .command w ∧ FaultCondition s w c ∧ t = s.raise c w := by
  rcases perform_next_cases h with ⟨w, rfl, hacc⟩ | ⟨-, rfl⟩ | ⟨a, -, rfl⟩
  · rcases acceptCommand_completesOk_or_raises hrun hacc with ⟨hkept, -⟩ | ⟨c, hcond, rfl⟩
    · exact absurd (hhalts.symm.trans (hkept.trans hrun)) (by decide)
    · exact ⟨w, c, rfl, hcond, rfl⟩
  · cases hhalts
  · exact absurd (hhalts.symm.trans hrun) (by decide)

/-! ### The halted state -/

/-- A halted block keeps its fault record under every input but a reset (R186, R187). -/
theorem perform_keeps_faultRecord_of_halted {e : Input} {s t : State} (h : perform e s = .next t) (hhalt : s.halt = true)
    (hreset : e ≠ .reset) : t.halt = true ∧ t.cause = s.cause ∧ t.fcmd = s.fcmd := by
  rcases perform_next_cases h with ⟨w, -, hacc⟩ | ⟨heq, -⟩ | ⟨a, -, rfl⟩
  · rw [acceptCommand_of_halted w hhalt] at hacc
    cases hacc
    exact ⟨hhalt, rfl, rfl⟩
  · exact absurd heq hreset
  · exact ⟨hhalt, rfl, rfl⟩

/-- A step of a halted block that takes no reset keeps the fault record; an idle step does too. -/
theorem step_keeps_faultRecord_of_halted {s t : State} (h : step s = .next t) (hhalt : s.halt = true)
    (hreset : ∀ rest, s.inputs ≠ .reset :: rest) : t.halt = true ∧ t.cause = s.cause ∧ t.fcmd = s.fcmd := by
  obtain ⟨-, ⟨-, rfl⟩ | ⟨e, rest, hinputs, hperf⟩⟩ := step_next_cases h
  · exact ⟨hhalt, rfl, rfl⟩
  · exact perform_keeps_faultRecord_of_halted (s := { s with inputs := rest }) hperf hhalt
      fun heq => hreset rest (heq ▸ hinputs)

/-! ### The obligations -/

/-- Settles O50: the input taken is a command word, and the step is the fault entry whose condition holds. -/
theorem faultsHaveExactlyTheirCauses : Obligations.FaultsHaveExactlyTheirCauses := by
  intro s t hstep hrun hhalts
  obtain ⟨-, ⟨-, rfl⟩ | ⟨e, rest, hinputs, hperf⟩⟩ := step_next_cases hstep
  · exact absurd (hhalts.symm.trans hrun) (by decide)
  · obtain ⟨w, c, rfl, hcond, rfl⟩ := perform_raises_of_halts hperf hrun hhalts
    exact ⟨w, rest, hinputs, rfl, hcond⟩

/-- Settles O51, by the two outcomes of an accepted word. -/
theorem faultsArePrecise : Obligations.FaultsArePrecise := by
  intro s t w rest hinputs hrun hstep
  have hacc : acceptCommand w { s with inputs := rest } = .next t := perform_of_step hstep hinputs
  rcases acceptCommand_completesOk_or_raises (s := { s with inputs := rest }) hrun hacc with
    ⟨hhalt, hrecord⟩ | ⟨c, hcond, rfl⟩
  · exact Or.inl ⟨hhalt.trans hrun, hrecord⟩
  · exact Or.inr ⟨hcond.cause_ne_none, rfl⟩

/-- Settles O53: without a reset a halted block stays halted, so a step that ends running took one. -/
theorem onlyResetLeavesTheHaltedState : Obligations.OnlyResetLeavesTheHaltedState := by
  intro s t hstep hhalt
  refine ⟨fun hrun => ?_, step_keeps_faultRecord_of_halted hstep hhalt⟩
  by_contra hreset
  obtain ⟨hhalted, -⟩ := step_keeps_faultRecord_of_halted hstep hhalt (not_exists.mp hreset)
  exact absurd (hhalted.symm.trans hrun) (by decide)

/-- Settles O49: fault entry is that update, with the response's data read off cause by cause. -/
theorem faultEntryWritesTheRecordOnly : Obligations.FaultEntryWritesTheRecordOnly := by
  intro s c w
  cases c
  all_goals rfl

/-- Settles O52: a command word meets R84's halt test, and a sink read is answered whether the block is halted or not. -/
theorem haltedBlockAnswersAndChangesNothing : Obligations.HaltedBlockAnswersAndChangesNothing := by
  intro s rest hwf hhalt
  refine ⟨hhalt, fun w hinputs => (stepRunsTheAcceptedWord s w rest hwf hinputs).1 hhalt, fun a hinputs hinside => ?_⟩
  obtain ⟨t, hstep, rfl, hread, -⟩ := sinkReadsTheFrameBufferAndChangesNothing s a rest hwf hinputs
  exact ⟨_, hstep, hread hinside, rfl, hhalt⟩

end Sys2Proof.Machine

namespace Sys2Proof.Machine

/-! The idle block (R211, log 10). -/

/-- Settles O10: with no pending input there is nothing to perform, so the step answers the state it was given. -/
theorem idleBlockStaysAsItIs : Obligations.IdleBlockStaysAsItIs := by
  intro s hwf hinputs
  exact step_of_no_input hwf hinputs

end Sys2Proof.Machine
